-- ==== Sys2Proof/Word.lean ====
section
/-! DEFINITION. The word types of the block (spec/00_scope.md R2 `REG_WIDTH`, `ADDR_WIDTH`; section 6 "Values"). -/

namespace Sys2Proof

/-- `REG_WIDTH`: bits of a device register and of a value on the register window (R2). -/
abbrev regWidth : Nat := 32

/-- `ADDR_WIDTH`: bits of a guest address the block produces (R2). -/
abbrev addrWidth : Nat := 32

/-- A register value, a value on the register window, or a guest address: 32 bits (R2). -/
abbrev Word := BitVec 32

/-- One byte of guest memory or of a frame. -/
abbrev Byte := BitVec 8

/-- A whole frame: a byte sequence with no length limit of its own (R40 (4), R48). -/
abbrev Frame := List Byte

end Sys2Proof
end

