-- ==== Sys2Proof/Machine/Constants.lean ====
section
/-! DEFINITION. The literals of spec/00_scope.md R2, each a named constant so that an audit of one changes one line. -/

namespace Sys2Proof.Machine

/-- Register offsets, spec/10_state.md R10. -/
abbrev offCtrl : Word := 0x00
abbrev offStatus : Word := 0x04
abbrev offMacHi : Word := 0x08
abbrev offMacLo : Word := 0x0c
abbrev offMdio : Word := 0x10
abbrev offTxdesc : Word := 0x14
abbrev offRxdesc : Word := 0x18

/-- `N_REGS`: the number of mapped registers (R2, R10). -/
abbrev nRegs : Nat := 7

/-- The offsets of the mapped registers, in order (R10). -/
abbrev regOffsets : List Word := [offCtrl, offStatus, offMacHi, offMacLo, offMdio, offTxdesc, offRxdesc]

/-- `CTRL_WMASK`: the writable ctrl bits (R2, R11). -/
abbrev ctrlWmask : Word := 0x000001bf

/-- `CTRL_GA`: bit 27, `gigabit-capable`, always 1 (R2, R11). -/
abbrev ctrlGa : Word := 0x08000000

/-- ctrl after reset: only `GA` set (R28). -/
abbrev ctrlReset : Word := 0x08000000

/-- Bit numbers of ctrl (R11). -/
abbrev bitTxen : Nat := 0
abbrev bitRxen : Nat := 1
abbrev bitTxie : Nat := 2
abbrev bitRxie : Nat := 3

/-- `ST_RX`, status bit 2, and `ST_TX`, status bit 3, as masks (R13). -/
abbrev statusRx : Word := 0x00000004
abbrev statusTx : Word := 0x00000008

/-- Bit numbers of a descriptor's word0: `DESC_EN`, `DESC_WR` (R2, R79). -/
abbrev bitEn : Nat := 11
abbrev bitWr : Nat := 12

/-- `LEN_MASK`: the descriptor's length field, bits 10:0 (R2, R79). -/
abbrev lenMask : Word := 0x000007ff

/-- `DESC_SIZE`: bytes of one descriptor (R2). -/
abbrev descSize : Nat := 8

/-- What a non-wrapping advance adds to a pointer: one descriptor (R140). -/
abbrev descStride : Word := BitVec.ofNat 32 descSize

/-- `RING_BYTES`: the size of the window a descriptor pointer wraps in (R2). -/
abbrev ringBytes : Nat := 0x400

/-- `RING_SLOTS`: the descriptors in one window (R2). -/
abbrev ringSlots : Nat := ringBytes / descSize

/-- The bits of a pointer inside the ring window, and those above it (R140). -/
abbrev ringOffsetMask : Word := BitVec.ofNat 32 (ringBytes - 1)
abbrev ringPageMask : Word := ~~~ringOffsetMask

/-- `TXBUF_CAP`: the bytes of the internal transmit frame buffer, which no length passes (R2, R24, R135). -/
abbrev txbufCap : Nat := 0x800

/-- `PTR_ALIGN_MASK`: applied to a store to txdesc or rxdesc (R2, R113, R114). -/
abbrev ptrAlignMask : Word := 0xfffffffc

/-- `PHY_ADDR`: the one PHY address that answers (R2, R174). -/
abbrev phyAddr : BitVec 5 := 1

/-- `PHY_NREGS`: the entries of the PHY register bank (R2, R22). -/
abbrev phyNregs : Nat := 32

/-- `PHY_TABLE[0]`: the one entry the source gives (R2, R174). -/
abbrev phyTable0 : BitVec 16 := 0x1140

/-- `MDIO_FLAGMASK`: the low six bits, cleared in every result (R2). -/
abbrev mdioFlagMask : Word := 0x0000003f

/-- What an MDIO result keeps of the request: all but the flag positions (R80). -/
abbrev mdioKeepMask : Word := ~~~mdioFlagMask

/-- What an MDIO read result keeps of the request: bits 15:6 (R80). -/
abbrev mdioReadMask : Word := mdioKeepMask &&& 0x0000ffff

/-- `MDIO_LINKFAIL` (R2, R171). -/
abbrev mdioLinkFail : Word := 0xffff0004

/-- The size of the guest address space: guest addresses have 32 bits (R2, R42). -/
abbrev guestSpace : Nat := 2 ^ addrWidth

end Sys2Proof.Machine
end

