-- ==== Sys2Proof/Config.lean ====
section
/-! DEFINITION. What the spec leaves to the platform (spec/00_scope.md R3, spec/92_eei_decisions.md): one record of
plain data, which State carries and no operation changes (log 1), and the one instance State.reset uses (log 2). -/

namespace Sys2Proof

/-- The platform parameters of R3. "A model is a function of these; a claim quantifies over them" (92_eei_decisions.md). -/
structure Config where
  /-- `REG_BASE`: guest-physical address of the register window (D4). -/
  regBase : Word
  /-- `REG_WINDOW_SIZE`: bytes of the register window, at least 0x1c (D4). -/
  regWindowSize : Nat
  /-- `IRQ_LINE`: the platform's number of the interrupt line (D4). -/
  irqLine : Nat
  /-- `MAC_DEFAULT`: the six bytes of the address held from power-on (D7). -/
  macDefault : Vector Byte 6
  /-- `TXDESC_POWERON` (D8). -/
  txdescPowerOn : Word
  /-- `RXDESC_POWERON` (D8). -/
  rxdescPowerOn : Word
  /-- `MAX_RX_FRAME`: the longest frame the Network Port delivers; below 2^32 by its type (D13). -/
  maxRxFrame : Word
  /-- `PHY_TABLE[1..31]`: entry `i + 1` of the table is `phyTable[i]` (D10). -/
  phyTable : Vector (BitVec 16) (Machine.phyNregs - 1)
  /-- The platform's part of `GuestMem.admits` (D2): the accesses (address, number of bytes) it turns away, one by one. Every
  predicate on the address and the number of bytes is some such list, since no admitted range passes 2^32 (log 8). -/
  turnedAway : List (Word × Nat)
  /-- The same in short: address ranges (first address, number of bytes) of which it turns every access away (log 8). -/
  holes : List (Nat × Nat)
  deriving DecidableEq, Repr

/-- The constraints R3 and D8 put on the parameters. -/
def Config.wf (c : Config) : Bool :=
  decide (0x1c ≤ c.regWindowSize) && decide (c.txdescPowerOn &&& 3 = 0) && decide (c.rxdescPowerOn &&& 3 = 0)

/-- Free value: the entries 1 to 31 of the PHY table, of which the spec gives none (43_mdio_phy.md R174, D10; log 3). -/
opaque Config.phyOpen : Nat → BitVec 16

/-- The instance State.reset is built on (log 2 for the choices, log 4 for the MAC bytes, log 5 for the pointers). -/
def Config.platform : Config where
  regBase := 0x80000000
  regWindowSize := 0x1c
  irqLine := 0
  macDefault := #v[0x02, 0x00, 0x00, 0x00, 0x00, 0x00]
  txdescPowerOn := 0
  rxdescPowerOn := 0
  maxRxFrame := 0xffffffff
  phyTable := Vector.ofFn fun i => Config.phyOpen (i.val + 1)
  turnedAway := []
  holes := []

end Sys2Proof
end

