-- ==== Sys2Proof/Machine/Operands.lean ====
section
/-! DEFINITION. Every field extraction and operand construction of spec/30_encoding.md R80, and the byte order of
spec/20_memory.md R47. Nothing here reads or writes State. -/

namespace Sys2Proof.Machine

/-- The 32-bit number of four bytes, the most significant first: `b0*2^24 + b1*2^16 + b2*2^8 + b3` (00_scope.md section 6). -/
def wordOfBytes (b0 b1 b2 b3 : Byte) : Word :=
  (b0.setWidth 32 <<< 24) ||| (b1.setWidth 32 <<< 16) ||| (b2.setWidth 32 <<< 8) ||| b3.setWidth 32

/-- `be32` of the four bytes of `d` from index `i` on: the byte at the lowest index is the most significant (R47). -/
def be32At (d : List Byte) (i : Nat) : Word :=
  wordOfBytes (d.getD i 0) (d.getD (i + 1) 0) (d.getD (i + 2) 0) (d.getD (i + 3) 0)

/-- `be32bytes`: bits 31:24, 23:16, 15:8, 7:0 in that order (R47). -/
def be32bytes (v : Word) : List Byte :=
  [v.extractLsb' 24 8, v.extractLsb' 16 8, v.extractLsb' 8 8, v.extractLsb' 0 8]

/-- The 32-bit value of a store: what the bus presents, modulo 2^32 (R50, D3). -/
def storeValue (presented : Nat) : Word := BitVec.ofNat 32 presented

/-- New ctrl of a ctrl store (R80, R108). -/
def newCtrl (value : Word) : Word := (value &&& ctrlWmask) ||| ctrlGa

/-- New pointer of a store to txdesc or rxdesc (R80, R113, R114). -/
def newPointer (value : Word) : Word := value &&& ptrAlignMask

/-- The two words of a descriptor (R79). -/
structure Descriptor where
  word0 : Word
  word1 : Word
  deriving DecidableEq, Repr

/-- The descriptor in the eight bytes fetched (R47, R79, R80). -/
def descriptorOfBytes (d : List Byte) : Descriptor := ⟨be32At d 0, be32At d 4⟩

/-- `EN`: word0 bit 11 (R79). -/
def descEnable (word0 : Word) : Bool := word0.getLsbD bitEn

/-- `WR`: word0 bit 12 (R79). -/
def descWrap (word0 : Word) : Bool := word0.getLsbD bitWr

/-- Transmit length `L`: word0 bits 10:0, 0 to 2047 (R80, R134, R135). -/
def txLength (word0 : Word) : Nat := (word0 &&& lenMask).toNat

/-- Receive length word: the frame's length as a 32-bit number (R80, R155, D13). -/
def rxLengthWord (n : Nat) : Word := BitVec.ofNat 32 n

/-- `Advance(p, w)` (41_transmit.md R140). -/
def advance (p : Word) (w : Bool) : Word :=
  if w then p &&& ringPageMask
  else (p &&& ringPageMask) ||| ((p + descStride) &&& ringOffsetMask)

/-- `phy_address`: bits 15:11 of an MDIO request (R76, R80). -/
def mdioPhyAddress (value : Word) : BitVec 5 := value.extractLsb' 11 5

/-- `reg_address`: bits 10:6 of an MDIO request (R76, R80). -/
def mdioRegAddress (value : Word) : BitVec 5 := value.extractLsb' 6 5

/-- `read_flag`: bit 1 of an MDIO request (R76, R80). -/
def mdioReadFlag (value : Word) : Bool := value.getLsbD 1

/-- `PHY_TABLE` (10_state.md R22): entry 0 is the source's, the others are the platform's (D10). -/
def phyTable (c : Config) (reg : BitVec 5) : BitVec 16 :=
  if reg = 0 then phyTable0 else c.phyTable[reg.toNat - 1]'(by have := reg.isLt; simp only [phyNregs]; omega)

/-- Link-fail result (R80, R171). -/
def mdioNoPhyResult (value : Word) : Word := (value &&& mdioKeepMask) ||| mdioLinkFail

/-- Write result (R80, R172). -/
def mdioWriteResult (value : Word) : Word := value &&& mdioKeepMask

/-- Read result (R80, R173). -/
def mdioReadResult (c : Config) (value : Word) : Word :=
  (value &&& mdioReadMask) ||| ((phyTable c (mdioRegAddress value)).setWidth 32 <<< 16)

/-- `MdioResult(value)` (43_mdio_phy.md R170). -/
def mdioResult (c : Config) (value : Word) : Word :=
  if mdioPhyAddress value ≠ phyAddr then mdioNoPhyResult value
  else if mdioReadFlag value then mdioReadResult c value
  else mdioWriteResult value

/-- `mac_hi` of a MAC-high store: value[15:0]; bits 31:16 are discarded (R110, D6). -/
def macHiOfValue (value : Word) : BitVec 16 := value.extractLsb' 0 16

/-- The value a MAC-high load returns: `zext_32(mac_hi)` (R102, D6). -/
def macHiValue (macHi : BitVec 16) : Word := macHi.setWidth 32

/-- `mac_hi` of a MAC address: mac[0] is its low byte, mac[1] its high byte (R15, D6). -/
def macHiOfBytes (m : Vector Byte 6) : BitVec 16 := (m[1].setWidth 16 <<< 8) ||| m[0].setWidth 16

/-- `mac_lo` of a MAC address: mac[2] is its lowest byte, mac[5] its highest (R15, D6). -/
def macLoOfBytes (m : Vector Byte 6) : Word := wordOfBytes m[5] m[4] m[3] m[2]

/-- The byte-array view `mac[0..5]` of the two MAC fields (R15, D6; log 15). -/
def macBytes (macHi : BitVec 16) (macLo : Word) : Vector Byte 6 :=
  #v[macHi.extractLsb' 0 8, macHi.extractLsb' 8 8,
     macLo.extractLsb' 0 8, macLo.extractLsb' 8 8, macLo.extractLsb' 16 8, macLo.extractLsb' 24 8]

/-- The offset is none of the seven of R10: the whole offset is compared (R52, R72, D17). -/
def offsetUnmapped (offset : Word) : Bool :=
  offset ≠ offCtrl && offset ≠ offStatus && offset ≠ offMacHi && offset ≠ offMacLo &&
    offset ≠ offMdio && offset ≠ offTxdesc && offset ≠ offRxdesc

end Sys2Proof.Machine
end

