-- ==== Sys2Proof/Syntax.lean ====
section
/-! DEFINITION. The 27 operations of spec/opcode_table.json (spec/30_encoding.md section 6), and the events that start
them (spec/00_scope.md R4, spec/60_exceptions.md section 7). -/

namespace Sys2Proof

/-- One constructor per row of the opcode table. `size` is the access width a bus access carries, which takes part in no
decision (30_encoding.md R71); `value` is the 32-bit value of a store (20_memory.md R50). The operands of the transmit and
receive operations beyond `frame` are state. -/
inductive Instr where
  | loadCtrl (size : Byte)
  | loadStatus (size : Byte)
  | loadMacHi (size : Byte)
  | loadMacLo (size : Byte)
  | loadMdio (size : Byte)
  | loadTxdesc (size : Byte)
  | loadRxdesc (size : Byte)
  | loadUnmapped (offset : Word) (size : Byte)
  | storeCtrl (size : Byte) (value : Word)
  | storeStatus (size : Byte) (value : Word)
  | storeMacHi (size : Byte) (value : Word)
  | storeMacLo (size : Byte) (value : Word)
  | storeMdio (size : Byte) (value : Word)
  | storeTxdesc (size : Byte) (value : Word)
  | storeRxdesc (size : Byte) (value : Word)
  | storeUnmapped (offset : Word) (size : Byte) (value : Word)
  | txOff
  | txIdle
  | txSend
  | rxCanReceive
  | rxOff (frame : Frame)
  | rxNoBuf (frame : Frame)
  | rxDeliver (frame : Frame)
  | mdioNoPhy (value : Word)
  | mdioWrite (value : Word)
  | mdioRead (value : Word)
  | reset
  deriving DecidableEq, Repr

/-- What an agent outside the block does. The first five are the block's own events (R4); the last two are moves of the
environment, which happen between events (R4, D14). -/
inductive Event where
  /-- A bus master loads (40_register_file.md). -/
  | busLoad (offset : Word) (size : Byte)
  /-- A bus master stores; `value` is what the bus presents, of any width (R50). -/
  | busStore (offset : Word) (size : Byte) (value : Nat)
  /-- The Network Port asks `canReceive()` (R150). -/
  | canReceive
  /-- The Network Port calls `receive(frame)` (R151 to R153). -/
  | receive (frame : Frame)
  /-- The enclosing system invokes reset (R220). -/
  | reset
  /-- The guest stores bytes at an address and up (trace line `mem`, R86). -/
  | guestWrite (addr : Word) (bytes : List Byte)
  /-- The interrupt consumer lowers the line (trace line `lower`, R86, R198). -/
  | lower
  deriving DecidableEq, Repr

end Sys2Proof
end

