-- ==== Sys2Proof/WellFormed.lean ====
section
/-! DEFINITION. Which terms of `Instr` stand for an operation of the table: the operands meet the row's own condition
(spec/30_encoding.md R72, R82), and a frame's length fits the 32-bit number the write-back holds (spec/42_receive.md R155,
spec/92_eei_decisions.md D13). -/

namespace Sys2Proof

open Sys2Proof.Machine

/-- A frame whose length is below 2^32 (D13). -/
def frameFits (f : Frame) : Bool := decide (f.length < 2 ^ 32)

/-- The operation's operands are ones its row of the table admits. -/
def Instr.wf : Instr → Bool
  | .loadCtrl _ => true
  | .loadStatus _ => true
  | .loadMacHi _ => true
  | .loadMacLo _ => true
  | .loadMdio _ => true
  | .loadTxdesc _ => true
  | .loadRxdesc _ => true
  | .loadUnmapped offset _ => offsetUnmapped offset
  | .storeCtrl _ _ => true
  | .storeStatus _ _ => true
  | .storeMacHi _ _ => true
  | .storeMacLo _ _ => true
  | .storeMdio _ _ => true
  | .storeTxdesc _ _ => true
  | .storeRxdesc _ _ => true
  | .storeUnmapped offset _ _ => offsetUnmapped offset
  | .txOff => true
  | .txIdle => true
  | .txSend => true
  | .rxCanReceive => true
  | .rxOff f => frameFits f
  | .rxNoBuf f => frameFits f
  | .rxDeliver f => frameFits f
  | .mdioNoPhy v => decide (mdioPhyAddress v ≠ phyAddr)
  | .mdioWrite v => decide (mdioPhyAddress v = phyAddr) && !mdioReadFlag v
  | .mdioRead v => decide (mdioPhyAddress v = phyAddr) && mdioReadFlag v
  | .reset => true

/-- What the Network Port owes: a frame of at most `MAX_RX_FRAME` bytes (60_exceptions.md section 7, D13). The block does
not check it (R154). -/
def Event.allowed (c : Config) : Event → Bool
  | .receive f => decide (f.length ≤ c.maxRxFrame.toNat)
  | _ => true

end Sys2Proof
end

