-- ==== Sys2Proof/Decode.lean ====
section
/-! DEFINITION. Decoding (spec/30_encoding.md R70 to R87), then the encoder. What the block decodes is a word `x` of one of
the table's spaces (R87) with the operands that travel beside it. The byte layout of such a record is the model's (log 10):
bytes 0 to 3 the word `x`, byte 4 the space, byte 5 the access size, bytes 6 and 7 zero, bytes 8 to 11 the value of a store,
bytes 12 to 15 the number of frame bytes, then the frame; numbers least significant byte first. -/

namespace Sys2Proof

open Sys2Proof.Machine

/-- The spaces of R87; the space `event` is named by its two entry points, which carry no bits. -/
inductive Space where
  | busLoadOffset
  | busStoreOffset
  | mdioStoreValue
  | ctrlAfterStore
  | txDescriptorWord0
  | ctrlAtReceive
  | rxDescriptorWord0
  | eventCanReceive
  | eventReset
  deriving DecidableEq, Repr

/-- A word of a space, and the operands beside it: the size and value of a bus access (R71), the frame of a `receive`. -/
structure OpRecord where
  space : Space
  x : Word
  size : Byte := 0
  value : Word := 0
  frame : Frame := []
  deriving DecidableEq, Repr

/-- Why a record is no operation. -/
inductive DecodeError where
  /-- Fewer bytes than the 16 every record has. -/
  | truncated
  /-- Byte 4 names no space. -/
  | unknownSpace (tag : Byte)
  /-- Byte 6 or 7 is not zero. -/
  | reservedNotZero
  /-- The frame bytes are not as many as bytes 12 to 15 say. -/
  | frameLength
  /-- An operand the space does not carry is not zero, or there is a frame where none travels. -/
  | strayOperand
  /-- The space has no row for this word: a ctrl with the tested enable bit set, where the next space is consulted (R81). -/
  | noRow
  deriving DecidableEq, Repr

/-- R72, loads. -/
def decodeBusLoad (offset : Word) (size : Byte) : Instr :=
  if offset = offCtrl then .loadCtrl size
  else if offset = offStatus then .loadStatus size
  else if offset = offMacHi then .loadMacHi size
  else if offset = offMacLo then .loadMacLo size
  else if offset = offMdio then .loadMdio size
  else if offset = offTxdesc then .loadTxdesc size
  else if offset = offRxdesc then .loadRxdesc size
  else .loadUnmapped offset size

/-- R72, stores. -/
def decodeBusStore (offset : Word) (size : Byte) (value : Word) : Instr :=
  if offset = offCtrl then .storeCtrl size value
  else if offset = offStatus then .storeStatus size value
  else if offset = offMacHi then .storeMacHi size value
  else if offset = offMacLo then .storeMacLo size value
  else if offset = offMdio then .storeMdio size value
  else if offset = offTxdesc then .storeTxdesc size value
  else if offset = offRxdesc then .storeRxdesc size value
  else .storeUnmapped offset size value

/-- R82: the kind of an MDIO request, by the masks and matches of the table. -/
def decodeMdio (value : Word) : Instr :=
  if value &&& 0x0000f802 = 0x00000800 then .mdioWrite value
  else if value &&& 0x0000f802 = 0x00000802 then .mdioRead value
  else .mdioNoPhy value

/-- The operation a record stands for (R72, R81, R82). -/
def decodeRecord (r : OpRecord) : Except DecodeError Instr :=
  match r.space with
  | .busLoadOffset =>
    if r.value = 0 ∧ r.frame = [] then .ok (decodeBusLoad r.x r.size) else .error .strayOperand
  | .busStoreOffset =>
    if r.frame = [] then .ok (decodeBusStore r.x r.size r.value) else .error .strayOperand
  | .mdioStoreValue =>
    if r.size = 0 ∧ r.value = 0 ∧ r.frame = [] then .ok (decodeMdio r.x) else .error .strayOperand
  | .ctrlAfterStore =>
    if r.size = 0 ∧ r.value = 0 ∧ r.frame = [] then
      (if r.x.getLsbD bitTxen then .error .noRow else .ok .txOff)
    else .error .strayOperand
  | .txDescriptorWord0 =>
    if r.size = 0 ∧ r.value = 0 ∧ r.frame = [] then
      .ok (if descEnable r.x then .txSend else .txIdle)
    else .error .strayOperand
  | .ctrlAtReceive =>
    if r.size = 0 ∧ r.value = 0 then
      (if r.x.getLsbD bitRxen then .error .noRow else .ok (.rxOff r.frame))
    else .error .strayOperand
  | .rxDescriptorWord0 =>
    if r.size = 0 ∧ r.value = 0 then
      .ok (if descEnable r.x then .rxDeliver r.frame else .rxNoBuf r.frame)
    else .error .strayOperand
  | .eventCanReceive =>
    if r.x = 0 ∧ r.size = 0 ∧ r.value = 0 ∧ r.frame = [] then .ok .rxCanReceive else .error .strayOperand
  | .eventReset =>
    if r.x = 0 ∧ r.size = 0 ∧ r.value = 0 ∧ r.frame = [] then .ok .reset else .error .strayOperand

/-- A number's four bytes, least significant first (log 10). -/
def leBytes (v : Word) : List Byte :=
  [v.extractLsb' 0 8, v.extractLsb' 8 8, v.extractLsb' 16 8, v.extractLsb' 24 8]

/-- The number in four bytes, least significant first (log 10). -/
def leWord (b0 b1 b2 b3 : Byte) : Word := wordOfBytes b3 b2 b1 b0

/-- Byte 4 of a record (log 10). -/
def tagOfSpace : Space → Byte
  | .busLoadOffset => 0
  | .busStoreOffset => 1
  | .mdioStoreValue => 2
  | .ctrlAfterStore => 3
  | .txDescriptorWord0 => 4
  | .ctrlAtReceive => 5
  | .rxDescriptorWord0 => 6
  | .eventCanReceive => 7
  | .eventReset => 8

/-- The space byte 4 of a record names (log 10). -/
def spaceOfTag (tag : Byte) : Except DecodeError Space :=
  if tag = 0 then .ok .busLoadOffset
  else if tag = 1 then .ok .busStoreOffset
  else if tag = 2 then .ok .mdioStoreValue
  else if tag = 3 then .ok .ctrlAfterStore
  else if tag = 4 then .ok .txDescriptorWord0
  else if tag = 5 then .ok .ctrlAtReceive
  else if tag = 6 then .ok .rxDescriptorWord0
  else if tag = 7 then .ok .eventCanReceive
  else if tag = 8 then .ok .eventReset
  else .error (.unknownSpace tag)

/-- Read a record from its bytes. -/
def recordOfBytes : List Byte → Except DecodeError OpRecord
  | x0 :: x1 :: x2 :: x3 :: tag :: size :: z0 :: z1 :: v0 :: v1 :: v2 :: v3 :: n0 :: n1 :: n2 :: n3 :: frame =>
    match spaceOfTag tag with
    | .error e => .error e
    | .ok space =>
      if z0 = 0 ∧ z1 = 0 then
        (if frame.length = (leWord n0 n1 n2 n3).toNat then
          .ok { space := space, x := leWord x0 x1 x2 x3, size := size, value := leWord v0 v1 v2 v3, frame := frame }
        else .error .frameLength)
      else .error .reservedNotZero
  | _ => .error .truncated

/-- The decoder: total on any bytes, rejecting by name. -/
def decode (bytes : List Byte) : Except DecodeError Instr :=
  match recordOfBytes bytes with
  | .error e => .error e
  | .ok r => decodeRecord r

/-! ## The encoder, from the same tables. Bits the row does not fix and no operand fills are 0. -/

/-- The record of an operation: the `match` of its row in the word of its space, and its operands. -/
def encodeRecord : Instr → OpRecord
  | .loadCtrl size => { space := .busLoadOffset, x := offCtrl, size := size }
  | .loadStatus size => { space := .busLoadOffset, x := offStatus, size := size }
  | .loadMacHi size => { space := .busLoadOffset, x := offMacHi, size := size }
  | .loadMacLo size => { space := .busLoadOffset, x := offMacLo, size := size }
  | .loadMdio size => { space := .busLoadOffset, x := offMdio, size := size }
  | .loadTxdesc size => { space := .busLoadOffset, x := offTxdesc, size := size }
  | .loadRxdesc size => { space := .busLoadOffset, x := offRxdesc, size := size }
  | .loadUnmapped offset size => { space := .busLoadOffset, x := offset, size := size }
  | .storeCtrl size value => { space := .busStoreOffset, x := offCtrl, size := size, value := value }
  | .storeStatus size value => { space := .busStoreOffset, x := offStatus, size := size, value := value }
  | .storeMacHi size value => { space := .busStoreOffset, x := offMacHi, size := size, value := value }
  | .storeMacLo size value => { space := .busStoreOffset, x := offMacLo, size := size, value := value }
  | .storeMdio size value => { space := .busStoreOffset, x := offMdio, size := size, value := value }
  | .storeTxdesc size value => { space := .busStoreOffset, x := offTxdesc, size := size, value := value }
  | .storeRxdesc size value => { space := .busStoreOffset, x := offRxdesc, size := size, value := value }
  | .storeUnmapped offset size value => { space := .busStoreOffset, x := offset, size := size, value := value }
  | .txOff => { space := .ctrlAfterStore, x := 0 }
  | .txIdle => { space := .txDescriptorWord0, x := 0 }
  | .txSend => { space := .txDescriptorWord0, x := 0x800 }
  | .rxCanReceive => { space := .eventCanReceive, x := 0 }
  | .rxOff frame => { space := .ctrlAtReceive, x := 0, frame := frame }
  | .rxNoBuf frame => { space := .rxDescriptorWord0, x := 0, frame := frame }
  | .rxDeliver frame => { space := .rxDescriptorWord0, x := 0x800, frame := frame }
  | .mdioNoPhy value => { space := .mdioStoreValue, x := value }
  | .mdioWrite value => { space := .mdioStoreValue, x := value }
  | .mdioRead value => { space := .mdioStoreValue, x := value }
  | .reset => { space := .eventReset, x := 0 }

/-- A record's bytes. -/
def bytesOfRecord (r : OpRecord) : List Byte :=
  leBytes r.x ++ [tagOfSpace r.space, r.size, 0, 0] ++ leBytes r.value ++ leBytes (BitVec.ofNat 32 r.frame.length) ++ r.frame

/-- The bytes of a well-formed operation. -/
def encode (i : Instr) : List Byte := bytesOfRecord (encodeRecord i)

/-! ## The opcode table's numbering -/

/-- The bytes of the record whose bits are `w`, numbered as the opcode table numbers them (bit 0 the least significant bit of
byte 0), every bit from `nbits` on zero; at least the 16 bytes every record has. -/
def tableBytes (nbits w : Nat) : List Byte :=
  (List.range (max 16 ((nbits + 7) / 8))).map fun k => BitVec.ofNat 8 ((w % 2 ^ nbits) >>> (8 * k))

/-- The instruction the decoder reads from an instruction whose bits are `w`. The table's words do not say which space they
belong to (R87): the space is byte 4 of the record, bits 39:32, so a word of at most 32 bits is a bus load offset (log 10). -/
def decodeTableWord (nbits w : Nat) : Option Instr :=
  match decode (tableBytes nbits w) with
  | .ok i => some i
  | .error _ => none

end Sys2Proof
end

