-- ==== Sys2Proof/Machine/Flags.lean ====
section
/-! DEFINITION. The flags (status bits 2 and 3, spec/10_state.md R13, R21) and the enable bits of ctrl that the engines
test (spec/10_state.md R11). -/

namespace Sys2Proof.Machine

/-- Who completed: the two interrupt sources of 60_exceptions.md R193. -/
inductive Source where
  | transmit
  | receive
  deriving DecidableEq, Repr

/-- The pending flag of a source (R193): `ST_TX` or `ST_RX`. -/
def flagOf : Source → Word
  | .transmit => statusTx
  | .receive => statusRx

/-- Set a source's flag, every other bit unchanged (R138, R157). -/
def setFlag (status : Word) (src : Source) : Word := status ||| flagOf src

/-- Write-1-to-clear: new status of a status store (R80, R109). -/
def clearStatus (status value : Word) : Word := status &&& ~~~value

/-- `TXEN`, `RXEN`, `TXIE`, `RXIE` (R11). -/
def txEnabled (ctrl : Word) : Bool := ctrl.getLsbD bitTxen
def rxEnabled (ctrl : Word) : Bool := ctrl.getLsbD bitRxen
def txInterruptEnabled (ctrl : Word) : Bool := ctrl.getLsbD bitTxie
def rxInterruptEnabled (ctrl : Word) : Bool := ctrl.getLsbD bitRxie

/-- The interrupt enable of a source (R193). -/
def interruptEnabled (ctrl : Word) : Source → Bool
  | .transmit => txInterruptEnabled ctrl
  | .receive => rxInterruptEnabled ctrl

end Sys2Proof.Machine
end

