-- ==== Sys2Proof/Machine/State.lean ====
section
/-! DEFINITION. Everything the spec gives the machine (spec/10_state.md), the reasons a step can stop, and the state at
power-on. Plain data. -/

namespace Sys2Proof.Machine

/-- Guest memory (R26): address and byte, addresses strictly rising below 2^32, no entry equal to what an unlisted address
reads as (`unlistedByte`, log 7). -/
abbrev Memory := List Host.Cell

/-- What the block does that an agent outside it can observe, in the order it does it (R27, R56, R197; log 11). -/
inductive Effect where
  /-- A bus load returned this value. -/
  | loadReturn (value : Word)
  /-- `canReceive()` returned this. -/
  | canReceiveReturn (answer : Bool)
  /-- `receive(frame)` returned this byte count. -/
  | receiveReturn (count : Nat)
  /-- `MemRead(addr, n)` was made. -/
  | memRead (addr : Word) (n : Nat)
  /-- `MemWrite(addr, len(bytes), bytes)` was made. -/
  | memWrite (addr : Word) (bytes : List Byte)
  /-- `Send(frame)` was called. -/
  | send (frame : Frame)
  /-- One assert signal was issued on the platform's line of this number. -/
  | irqAssert (line : Nat)
  /-- A load of an unmapped offset was logged (D15). -/
  | unhandledLoad (offset : Word)
  /-- A store to an unmapped offset was logged (D15). -/
  | unhandledStore (offset : Word)
  deriving DecidableEq, Repr

/-- The state. Which rule names each field, and its value at power-on: INVENTORY.md, State. -/
structure State where
  /-- Platform parameters (R3), the same in every state of a run (log 1). -/
  cfg : Config
  /-- R11, R12. -/
  ctrl : Word
  /-- R13, R14. -/
  status : Word
  /-- R15. -/
  macHi : BitVec 16
  /-- R15. -/
  macLo : Word
  /-- R16, R17. -/
  mdio : Word
  /-- R18 to R20. -/
  txdesc : Word
  /-- R18 to R20. -/
  rxdesc : Word
  /-- The level of the interrupt output: true is asserted (R23). -/
  irq : Bool
  /-- Guest memory (R26). -/
  mem : Memory
  /-- What has been done so far, oldest first (log 11). -/
  trace : List Effect
  /-- The events still to come, oldest first (log 9). -/
  inputs : List Event
  deriving DecidableEq, Repr

/-- Why the machine stops. -/
inductive Fault where
  /-- Raised by a `MemRead` or `MemWrite` whose range `GuestMem.admits` turns away (20_memory.md R46, D2): no end state.
  Safe: it cuts runs off and invents none. -/
  | dmaError
  deriving DecidableEq, Repr

/-- Why a step has no meaning. -/
inductive Refusal where
  /-- Raised by an arm of `exec` that has no meaning yet; no arm is such. Safe. -/
  | notModelled (mnemonic : String)
  /-- Raised by `step` on a presented record the decoder rejects; the decoder rejects none that `present` makes (R84). Safe. -/
  | undecodable (why : DecodeError)
  deriving DecidableEq, Repr

/-- The state at power-on on a platform: creation with the values of R29, then the one reset that R221 makes part of
power-on. The pointers' low two bits are zero, the constraint D8 puts on the parameters. -/
def State.powerOn (c : Config) : State where
  cfg := c
  ctrl := ctrlReset
  status := 0
  macHi := macHiOfBytes c.macDefault
  macLo := macLoOfBytes c.macDefault
  mdio := 0
  txdesc := newPointer c.txdescPowerOn
  rxdesc := newPointer c.rxdescPowerOn
  irq := false
  mem := []
  trace := []
  inputs := []

/-- The machine right after reset at power-on, on the model's platform (R221; logs 2 to 7). -/
def State.reset : State := State.powerOn Config.platform

end Sys2Proof.Machine
end

