-- ==== Sys2Proof/Machine/Ops.lean ====
section
/-! DEFINITION. The operations the meanings share: guest memory, the DMA primitives of spec/20_memory.md, the descriptor
fetch, the hand-off of a frame, the interrupt signal of spec/60_exceptions.md, and the environment's two moves. -/

namespace Sys2Proof.Machine

/-! ## Guest memory, one byte at a time -/

/-- What an address that is not listed reads as (log 7). -/
def unlistedByte : Byte := 0

/-- Read one byte. -/
def Memory.readByte : Memory → Nat → Byte
  | [], _ => unlistedByte
  | (k, v) :: rest, a => if a = k then v else Memory.readByte rest a

/-- Put one byte in, keeping the canonical form. -/
def Memory.writeByte : Memory → Nat → Byte → Memory
  | [], a, b => if b = unlistedByte then [] else [(a, b)]
  | (k, v) :: rest, a, b =>
    if a < k then (if b = unlistedByte then (k, v) :: rest else (a, b) :: (k, v) :: rest)
    else if a = k then (if b = unlistedByte then rest else (a, b) :: rest)
    else (k, v) :: Memory.writeByte rest a b

/-- The `n` bytes from address `a` up, lowest address first (R44). -/
def Memory.readRange (m : Memory) (a : Nat) : Nat → List Byte
  | 0 => []
  | n + 1 => m.readByte a :: Memory.readRange m (a + 1) n

/-- Store bytes from address `a` up (R44). -/
def Memory.writeRange (m : Memory) (a : Nat) : List Byte → Memory
  | [] => m
  | b :: bs => Memory.writeRange (m.writeByte a b) (a + 1) bs

/-- The canonical form, for addresses from `lo` on. -/
def Memory.wfFrom : Nat → Memory → Bool
  | _, [] => true
  | lo, (a, b) :: rest =>
    decide (lo ≤ a) && decide (a < guestSpace) && decide (b ≠ unlistedByte) && Memory.wfFrom (a + 1) rest

/-- The canonical form: addresses strictly rising and below 2^32, no entry equal to what an unlisted address reads as. -/
def Memory.wf (m : Memory) : Bool := Memory.wfFrom 0 m

/-! ## What the block does, recorded (log 11) -/

/-- Record one effect. -/
def State.emit (s : State) (e : Effect) : State := { s with trace := s.trace ++ [e] }

/-! ## The DMA primitives -/

/-- The ranges `[a, a + n)` and `[b, b + m)` have an address in common. -/
def rangesMeet (a n b m : Nat) : Bool :=
  decide (0 < n) && decide (0 < m) && decide (a < b + m) && decide (b < a + n)

/-- The platform's part of `GuestMem.admits` (R3, D2; log 8). -/
def platformAdmits (c : Config) (addr : Word) (n : Nat) : Bool :=
  !c.turnedAway.contains (addr, n) && c.holes.all fun h => !rangesMeet addr.toNat n h.1 h.2

/-- `GuestMem.admits(addr, n)` (R46, R244, D2): a range of length 0 always; else it must not pass 2^32, not overlap the
block's own register window, and not be turned away by the platform. -/
def admits (c : Config) (addr : Word) (n : Nat) : Bool :=
  n == 0 ||
    (decide (addr.toNat + n ≤ guestSpace) && !rangesMeet addr.toNat n c.regBase.toNat c.regWindowSize &&
      platformAdmits c addr n)

/-- `MemRead(addr, n)` (R44): the bytes and the state, or `DmaError` (R46). -/
def dmaRead (s : State) (addr : Word) (n : Nat) : Except Fault (List Byte × State) :=
  if admits s.cfg addr n then .ok (s.mem.readRange addr.toNat n, s.emit (.memRead addr n))
  else .error .dmaError

/-- `MemWrite(addr, len(bytes), bytes)` (R44), or `DmaError` (R46). -/
def dmaWrite (s : State) (addr : Word) (bytes : List Byte) : Except Fault State :=
  if admits s.cfg addr bytes.length then
    .ok ({ s with mem := s.mem.writeRange addr.toNat bytes }.emit (.memWrite addr bytes))
  else .error .dmaError

/-- The descriptor that stands in memory at a pointer: eight bytes, linearly, big-endian (R47, R51, R133). -/
def descriptorAt (m : Memory) (p : Word) : Descriptor := descriptorOfBytes (m.readRange p.toNat descSize)

/-- The descriptor fetch of both engines: `MemRead(p, 8)`, decoded (R131, R133, R151). -/
def fetchDescriptor (s : State) (p : Word) : Except Fault (Descriptor × State) :=
  match dmaRead s p descSize with
  | .error f => .error f
  | .ok (bytes, s1) => .ok (descriptorOfBytes bytes, s1)

/-- `Send(f)` (R136): the frame is handed over; nothing comes back. -/
def sendFrame (s : State) (f : Frame) : State := s.emit (.send f)

/-! ## The interrupt signal: the counterpart of taking an exception, and of returning from one -/

/-- `IrqAssert` (R197): the level becomes 1 and one assert signal is issued, also when it was 1. -/
def irqAssert (s : State) : State := { s with irq := true }.emit (.irqAssert s.cfg.irqLine)

/-- What the block does when it signals a completion (R195, R201): it sets the source's flag, then asserts the line if the
source's enable bit of ctrl is set. It saves nothing else and masks nothing. -/
def signalCompletion (s : State) (src : Source) : State :=
  let s1 := { s with status := setFlag s.status src }
  if interruptEnabled s1.ctrl src then irqAssert s1 else s1

/-- The acknowledgement, the counterpart of a return (R202): the flags named in `value` are cleared; the line stays. -/
def acknowledge (s : State) (value : Word) : State := { s with status := clearStatus s.status value }

/-! ## The environment's moves between events (D14) -/

/-- The guest stores bytes at an address and up, the address counted modulo 2^32 (log 19). -/
def guestStore (m : Memory) (addr : Word) : List Byte → Memory
  | [] => m
  | b :: bs => guestStore (m.writeByte addr.toNat b) (addr + 1) bs

/-- The consumer lowers the line (R198). -/
def lowerLine (s : State) : State := { s with irq := false }

end Sys2Proof.Machine
end

