-- ==== Sys2Proof/Machine/Receive.lean ====
section
/-! DEFINITION. The receive engine: `RX.CANRECEIVE`, `RX.OFF`, `RX.NOBUF`, `RX.DELIVER` (spec/42_receive.md). -/

namespace Sys2Proof.Machine

/-- `receive` returns to the Network Port (R159). -/
def receiveReturns (s : State) (count : Nat) : Host.Outcome State Fault Refusal := .next (s.emit (.receiveReturn count))

/-- `RX.CANRECEIVE` (R150): `ctrl[1]`, no other test. -/
def execRxCanReceive (s : State) : Host.Outcome State Fault Refusal :=
  .next (s.emit (.canReceiveReturn (rxEnabled s.ctrl)))

/-- `RX.OFF` (R152): return 0; no access is made and the frame is not kept. -/
def execRxOff (_frame : Frame) (s : State) : Host.Outcome State Fault Refusal := receiveReturns s 0

/-- `RX.NOBUF` (R153): the lines of R151 up to the second `return 0`. -/
def execRxNoBuf (_frame : Frame) (s : State) : Host.Outcome State Fault Refusal :=
  if rxEnabled s.ctrl then
    match fetchDescriptor s s.rxdesc with
    | .error f => .fault f
    | .ok (_, s1) => receiveReturns s1 0
  else receiveReturns s 0

/-- Steps 5 to 7 of `receive` on the descriptor at `p` (R156 to R159); `WR` is the fetched word0's (D18). -/
def rxComplete (s : State) (p : Word) (word0 : Word) (count : Nat) : Host.Outcome State Fault Refusal :=
  receiveReturns (signalCompletion { s with rxdesc := advance p (descWrap word0) } .receive) count

/-- `RX.DELIVER` (R151): the whole `receive(frame)`. -/
def execRxDeliver (frame : Frame) (s : State) : Host.Outcome State Fault Refusal :=
  if rxEnabled s.ctrl then
    match fetchDescriptor s s.rxdesc with
    | .error f => .fault f
    | .ok (d, s1) =>
      if descEnable d.word0 then
        match dmaWrite s1 d.word1 frame with
        | .error f => .fault f
        | .ok s2 =>
          match dmaWrite s2 s.rxdesc (be32bytes (rxLengthWord frame.length)) with
          | .error f => .fault f
          | .ok s3 => rxComplete s3 s.rxdesc d.word0 frame.length
      else receiveReturns s1 0
  else receiveReturns s 0

end Sys2Proof.Machine
end

