-- ==== Sys2Proof/Machine/Mdio.lean ====
section
/-! DEFINITION. The MDIO interface and the PHY register bank: `MDIO.NOPHY`, `MDIO.WRITE`, `MDIO.READ`
(spec/43_mdio_phy.md). -/

namespace Sys2Proof.Machine

/-- `MDIO.NOPHY` (R171): the link-fail pattern. -/
def execMdioNoPhy (value : Word) (s : State) : Host.Outcome State Fault Refusal :=
  .next { s with mdio := mdioNoPhyResult value }

/-- `MDIO.WRITE` (R172): the request echoed, the table untouched. -/
def execMdioWrite (value : Word) (s : State) : Host.Outcome State Fault Refusal :=
  .next { s with mdio := mdioWriteResult value }

/-- `MDIO.READ` (R173): the table's entry in bits 31:16. -/
def execMdioRead (value : Word) (s : State) : Host.Outcome State Fault Refusal :=
  .next { s with mdio := mdioReadResult s.cfg value }

/-- The second half of an mdio store: which request it is (R82, R170). -/
def mdioRequest (value : Word) (s : State) : Host.Outcome State Fault Refusal :=
  if mdioPhyAddress value ≠ phyAddr then execMdioNoPhy value s
  else if mdioReadFlag value then execMdioRead value s
  else execMdioWrite value s

end Sys2Proof.Machine
end

