-- ==== Sys2Proof/Machine/Transmit.lean ====
section
/-! DEFINITION. The transmit engine: `TX.OFF`, `TX.IDLE`, `TX.SEND` (spec/41_transmit.md). -/

namespace Sys2Proof.Machine

/-- `TX.OFF` (R130): stop; no access is made. -/
def execTxOff (s : State) : Host.Outcome State Fault Refusal := .next s

/-- `TX.IDLE` (R132): the transaction's first four lines; the only action is the eight-byte read at txdesc. -/
def execTxIdle (s : State) : Host.Outcome State Fault Refusal :=
  match fetchDescriptor s s.txdesc with
  | .error f => .fault f
  | .ok (_, s1) => .next s1

/-- Steps 6 and 7 of the transaction on the descriptor at `p` (R131, R138 to R140). -/
def txComplete (s : State) (p : Word) (word0 : Word) : State :=
  signalCompletion { s with txdesc := advance p (descWrap word0) } .transmit

/-- `TX.SEND` (R131): the whole `TransmitTransaction`. -/
def execTxSend (s : State) : Host.Outcome State Fault Refusal :=
  match fetchDescriptor s s.txdesc with
  | .error f => .fault f
  | .ok (d, s1) =>
    if descEnable d.word0 then
      match dmaRead s1 d.word1 (txLength d.word0) with
      | .error f => .fault f
      | .ok (frame, s2) =>
        match dmaWrite (sendFrame s2 frame) s.txdesc (be32bytes 0) with
        | .error f => .fault f
        | .ok s3 => .next (txComplete s3 s.txdesc d.word0)
    else .next s1

/-- The second half of a ctrl store: which of the three operations runs (R81), in the state after ctrl is replaced. -/
def transmitAfterStore (s : State) : Host.Outcome State Fault Refusal :=
  if txEnabled s.ctrl then
    (if descEnable (descriptorAt s.mem s.txdesc).word0 then execTxSend s else execTxIdle s)
  else execTxOff s

end Sys2Proof.Machine
end

