-- ==== Sys2Proof/Machine/RegisterFile.lean ====
section
/-! DEFINITION. The register file: the eight loads and the eight stores (spec/40_register_file.md). `size` is an operand of
every access and takes part in nothing (R71). -/

namespace Sys2Proof.Machine

/-- A load returns a value to the bus and does nothing else (R54, D5). -/
def loadReturns (s : State) (value : Word) : Host.Outcome State Fault Refusal := .next (s.emit (.loadReturn value))

/-- `LOAD.CTRL` (R100). -/
def execLoadCtrl (_size : Byte) (s : State) : Host.Outcome State Fault Refusal := loadReturns s s.ctrl

/-- `LOAD.STATUS` (R101). -/
def execLoadStatus (_size : Byte) (s : State) : Host.Outcome State Fault Refusal := loadReturns s s.status

/-- `LOAD.MACHI` (R102). -/
def execLoadMacHi (_size : Byte) (s : State) : Host.Outcome State Fault Refusal := loadReturns s (macHiValue s.macHi)

/-- `LOAD.MACLO` (R103). -/
def execLoadMacLo (_size : Byte) (s : State) : Host.Outcome State Fault Refusal := loadReturns s s.macLo

/-- `LOAD.MDIO` (R104): the held result, not recomputed. -/
def execLoadMdio (_size : Byte) (s : State) : Host.Outcome State Fault Refusal := loadReturns s s.mdio

/-- `LOAD.TXDESC` (R105). -/
def execLoadTxdesc (_size : Byte) (s : State) : Host.Outcome State Fault Refusal := loadReturns s s.txdesc

/-- `LOAD.RXDESC` (R106). -/
def execLoadRxdesc (_size : Byte) (s : State) : Host.Outcome State Fault Refusal := loadReturns s s.rxdesc

/-- `LOAD.UNMAPPED` (R107): logged, returns 0. -/
def execLoadUnmapped (offset : Word) (_size : Byte) (s : State) : Host.Outcome State Fault Refusal :=
  loadReturns (s.emit (.unhandledLoad offset)) 0

/-- `STORE.CTRL` (R108): ctrl is replaced first, then the transmit engine's part follows in the new state. -/
def execStoreCtrl (_size : Byte) (value : Word) (s : State) : Host.Outcome State Fault Refusal :=
  transmitAfterStore { s with ctrl := newCtrl value }

/-- `STORE.STATUS` (R109): write-1-to-clear. -/
def execStoreStatus (_size : Byte) (value : Word) (s : State) : Host.Outcome State Fault Refusal :=
  .next (acknowledge s value)

/-- `STORE.MACHI` (R110). -/
def execStoreMacHi (_size : Byte) (value : Word) (s : State) : Host.Outcome State Fault Refusal :=
  .next { s with macHi := macHiOfValue value }

/-- `STORE.MACLO` (R111). -/
def execStoreMacLo (_size : Byte) (value : Word) (s : State) : Host.Outcome State Fault Refusal :=
  .next { s with macLo := value }

/-- `STORE.MDIO` (R112): the store is an MDIO request; the written value itself is not stored. -/
def execStoreMdio (_size : Byte) (value : Word) (s : State) : Host.Outcome State Fault Refusal := mdioRequest value s

/-- `STORE.TXDESC` (R113). -/
def execStoreTxdesc (_size : Byte) (value : Word) (s : State) : Host.Outcome State Fault Refusal :=
  .next { s with txdesc := newPointer value }

/-- `STORE.RXDESC` (R114). -/
def execStoreRxdesc (_size : Byte) (value : Word) (s : State) : Host.Outcome State Fault Refusal :=
  .next { s with rxdesc := newPointer value }

/-- `STORE.UNMAPPED` (R115): logged, ignored. -/
def execStoreUnmapped (offset : Word) (_size : Byte) (_value : Word) (s : State) : Host.Outcome State Fault Refusal :=
  .next (s.emit (.unhandledStore offset))

end Sys2Proof.Machine
end

