-- ==== Sys2Proof/Machine/System.lean ====
section
/-! DEFINITION. `RESET` (spec/70_reset_and_hazards.md R220). -/

namespace Sys2Proof.Machine

/-- `RESET` (R220): ctrl, status and mdio take their reset values; the pointers, the MAC address, the line and guest memory
are left alone. -/
def execReset (s : State) : Host.Outcome State Fault Refusal :=
  .next { s with ctrl := ctrlReset, status := 0, mdio := 0 }

end Sys2Proof.Machine
end

