-- ==== Sys2Proof/Machine/Dispatch.lean ====
section
/-! DEFINITION. One arm per operation. -/

namespace Sys2Proof.Machine

def exec (i : Instr) (s : State) : Host.Outcome State Fault Refusal :=
  match i with
  -- 40_register_file.md
  | .loadCtrl size => Sys2Proof.Machine.execLoadCtrl size s
  | .loadStatus size => Sys2Proof.Machine.execLoadStatus size s
  | .loadMacHi size => Sys2Proof.Machine.execLoadMacHi size s
  | .loadMacLo size => Sys2Proof.Machine.execLoadMacLo size s
  | .loadMdio size => Sys2Proof.Machine.execLoadMdio size s
  | .loadTxdesc size => Sys2Proof.Machine.execLoadTxdesc size s
  | .loadRxdesc size => Sys2Proof.Machine.execLoadRxdesc size s
  | .loadUnmapped offset size => Sys2Proof.Machine.execLoadUnmapped offset size s
  | .storeCtrl size value => Sys2Proof.Machine.execStoreCtrl size value s
  | .storeStatus size value => Sys2Proof.Machine.execStoreStatus size value s
  | .storeMacHi size value => Sys2Proof.Machine.execStoreMacHi size value s
  | .storeMacLo size value => Sys2Proof.Machine.execStoreMacLo size value s
  | .storeMdio size value => Sys2Proof.Machine.execStoreMdio size value s
  | .storeTxdesc size value => Sys2Proof.Machine.execStoreTxdesc size value s
  | .storeRxdesc size value => Sys2Proof.Machine.execStoreRxdesc size value s
  | .storeUnmapped offset size value => Sys2Proof.Machine.execStoreUnmapped offset size value s
  -- 41_transmit.md
  | .txOff => Sys2Proof.Machine.execTxOff s
  | .txIdle => Sys2Proof.Machine.execTxIdle s
  | .txSend => Sys2Proof.Machine.execTxSend s
  -- 42_receive.md
  | .rxCanReceive => Sys2Proof.Machine.execRxCanReceive s
  | .rxOff frame => Sys2Proof.Machine.execRxOff frame s
  | .rxNoBuf frame => Sys2Proof.Machine.execRxNoBuf frame s
  | .rxDeliver frame => Sys2Proof.Machine.execRxDeliver frame s
  -- 43_mdio_phy.md
  | .mdioNoPhy value => Sys2Proof.Machine.execMdioNoPhy value s
  | .mdioWrite value => Sys2Proof.Machine.execMdioWrite value s
  | .mdioRead value => Sys2Proof.Machine.execMdioRead value s
  -- 70_reset_and_hazards.md
  | .reset => Sys2Proof.Machine.execReset s

end Sys2Proof.Machine
end

