-- ==== Sys2Proof/Machine/Events.lean ====
section
/-! DEFINITION. What an event presents to the block (spec/00_scope.md R4, spec/30_encoding.md R81, R87), and how an encoded
operation is laid before the machine. -/

namespace Sys2Proof.Machine

/-- An event is a move of the environment, whose effect is the given state, or presents a record for the block to decode. -/
inductive Presented where
  | environment (s : State)
  | operation (r : OpRecord)
  deriving DecidableEq, Repr

/-- The record of a `receive` (R81): the word tested first is ctrl; with `RXEN` set it is word0 of the descriptor at rxdesc. -/
def receiveRecord (frame : Frame) (s : State) : OpRecord :=
  if rxEnabled s.ctrl then
    { space := .rxDescriptorWord0, x := (descriptorAt s.mem s.rxdesc).word0, frame := frame }
  else { space := .ctrlAtReceive, x := s.ctrl, frame := frame }

/-- What an event presents in a state. -/
def present (e : Event) (s : State) : Presented :=
  match e with
  | .busLoad offset size => .operation { space := .busLoadOffset, x := offset, size := size }
  | .busStore offset size value =>
    .operation { space := .busStoreOffset, x := offset, size := size, value := storeValue value }
  | .canReceive => .operation { space := .eventCanReceive, x := 0 }
  | .receive frame => .operation (receiveRecord frame s)
  | .reset => .operation { space := .eventReset, x := 0 }
  | .guestWrite addr bytes => .environment { s with mem := guestStore s.mem addr bytes }
  | .lower => .environment (lowerLine s)

/-! ## Laying an encoded operation before the machine (log 9) -/

/-- An event becomes the next one. -/
def State.withInput (s : State) (e : Event) : State := { s with inputs := e :: s.inputs }

/-- A word0 stands in guest memory at a descriptor pointer. -/
def State.withWord0 (s : State) (p : Word) (word0 : Word) : State :=
  { s with mem := guestStore s.mem p (be32bytes word0) }

/-- The state in which the very next step runs the operation the record stands for: the event that starts it comes next, and
the ctrl bit and the word0 that select it stand where the block looks for them. `TX.*` and `MDIO.*` run inside their store. -/
def arrange (r : OpRecord) (s : State) : State :=
  match r.space with
  | .busLoadOffset => s.withInput (.busLoad r.x r.size)
  | .busStoreOffset => s.withInput (.busStore r.x r.size r.value.toNat)
  | .mdioStoreValue => s.withInput (.busStore offMdio 4 r.x.toNat)
  | .ctrlAfterStore => s.withInput (.busStore offCtrl 4 r.x.toNat)
  | .txDescriptorWord0 => (s.withWord0 s.txdesc r.x).withInput (.busStore offCtrl 4 (s.ctrl ||| 1).toNat)
  | .ctrlAtReceive => { s with ctrl := newCtrl r.x }.withInput (.receive r.frame)
  | .rxDescriptorWord0 => ({ s with ctrl := s.ctrl ||| 2 }.withWord0 s.rxdesc r.x).withInput (.receive r.frame)
  | .eventCanReceive => s.withInput .canReceive
  | .eventReset => s.withInput .reset

end Sys2Proof.Machine
end

