-- ==== Sys2Proof/Machine/Step.lean ====
section
/-! DEFINITION. One step serves one event, whole (spec/20_memory.md R55; log 9). With no event to serve nothing happens: the
block "has no step of its own" (spec/00_scope.md R4). -/

namespace Sys2Proof.Machine

/-- The state once the first event has been taken from the list. -/
def State.tookInput (s : State) : State := { s with inputs := s.inputs.tail }

/-- Serve the first event: a move of the environment happens, a record is decoded and its operation runs. -/
def step (s : State) : Host.Outcome State Fault Refusal :=
  match s.inputs with
  | [] => .next s
  | e :: _ =>
    match present e s.tookInput with
    | .environment t => .next t
    | .operation r =>
      match decodeRecord r with
      | .ok i => exec i s.tookInput
      | .error why => .refused (.undecodable why)

/-- `s` with the operation of that table word laid before it, so that the next step runs it (log 9, log 10). -/
def State.withFetchWord (s : State) (nbits w : Nat) : State :=
  match recordOfBytes (tableBytes nbits w) with
  | .ok r => arrange r s
  | .error _ => s

end Sys2Proof.Machine
end

