-- ==== Sys2Proof/Safety.lean ====
section
/-! DEFINITION. The terms claims about runs are stated in: the machine's invariant, the guest-memory accesses an operation
makes, and views of what has been observed. -/

namespace Sys2Proof.Machine

/-! ## The invariant -/

/-- R12: bit 27 is 1 and no bit outside 0x080001bf is set. -/
abbrev ctrlInv (ctrl : Word) : Prop := ctrl.getLsbD 27 = true ∧ ctrl &&& 0xf7fffe40 = 0

/-- R14: reserved status bits are 0. -/
abbrev statusInv (status : Word) : Prop := status &&& 0xfffffff3 = 0

/-- R17, and the result layout of R16: 0 before any request; bits 5:0 zero after a request to PHY address 1; after a request
to another address bits 5:0 are 0x04 and bits 31:16 are 0xffff. -/
abbrev mdioInv (mdio : Word) : Prop :=
  mdio = 0 ∨ (mdio &&& 0x3f = 0 ∧ (mdio >>> 11) &&& 0x1f = 1) ∨
    (mdio &&& 0x3f = 4 ∧ (mdio >>> 11) &&& 0x1f ≠ 1 ∧ mdio >>> 16 = 0xffff)

/-- R19: a descriptor pointer is a multiple of 4. -/
abbrev pointerInv (p : Word) : Prop := p &&& 3 = 0

/-- What holds of every state a run reaches: R12, R14, R17, R19, and guest memory in its canonical form. -/
abbrev Inv (s : State) : Prop :=
  ctrlInv s.ctrl ∧ statusInv s.status ∧ mdioInv s.mdio ∧ pointerInv s.txdesc ∧ pointerInv s.rxdesc ∧ s.mem.wf = true

/-! ## Guest-memory accesses (20_memory.md R53) -/

/-- One `MemRead` or `MemWrite`: which of the two, where, how many bytes. -/
structure Access where
  write : Bool
  addr : Word
  n : Nat
  deriving DecidableEq, Repr

/-- The accesses of a transmit transaction, in order (R53, R56). -/
def txAccesses (s : State) : List Access :=
  let d := descriptorAt s.mem s.txdesc
  ⟨false, s.txdesc, 8⟩ ::
    (if d.word0.getLsbD 11 then [⟨false, d.word1, (d.word0 &&& 0x7ff).toNat⟩, ⟨true, s.txdesc, 4⟩] else [])

/-- The accesses of a `receive` with `RXEN = 1`, in order (R53, R56). -/
def rxAccesses (frame : Frame) (s : State) : List Access :=
  let d := descriptorAt s.mem s.rxdesc
  ⟨false, s.rxdesc, 8⟩ ::
    (if d.word0.getLsbD 11 then [⟨true, d.word1, frame.length⟩, ⟨true, s.rxdesc, 4⟩] else [])

/-- The accesses an operation makes in a state, in order, as the table of R53 lists them. -/
def dmaAccesses (i : Instr) (s : State) : List Access :=
  match i with
  | .loadCtrl _ => []
  | .loadStatus _ => []
  | .loadMacHi _ => []
  | .loadMacLo _ => []
  | .loadMdio _ => []
  | .loadTxdesc _ => []
  | .loadRxdesc _ => []
  | .loadUnmapped _ _ => []
  | .storeCtrl _ value => if value.getLsbD 0 then txAccesses s else []
  | .storeStatus _ _ => []
  | .storeMacHi _ _ => []
  | .storeMacLo _ _ => []
  | .storeMdio _ _ => []
  | .storeTxdesc _ _ => []
  | .storeRxdesc _ _ => []
  | .storeUnmapped _ _ _ => []
  | .txOff => []
  | .txIdle => [⟨false, s.txdesc, 8⟩]
  | .txSend => txAccesses s
  | .rxCanReceive => []
  | .rxOff _ => []
  | .rxNoBuf _ => if s.ctrl.getLsbD 1 then [⟨false, s.rxdesc, 8⟩] else []
  | .rxDeliver frame => if s.ctrl.getLsbD 1 then rxAccesses frame s else []
  | .mdioNoPhy _ => []
  | .mdioWrite _ => []
  | .mdioRead _ => []
  | .reset => []

/-- Every access the operation makes is one the accessor admits. -/
abbrev dmaAdmitted (i : Instr) (s : State) : Prop := ∀ a ∈ dmaAccesses i s, admits s.cfg a.addr a.n = true

/-- The address is one of the bytes the operation stores to. -/
def storedTo (i : Instr) (s : State) (addr : Nat) : Prop :=
  ∃ a ∈ dmaAccesses i s, a.write = true ∧ a.addr.toNat ≤ addr ∧ addr < a.addr.toNat + a.n

/-! ## Views of what has been observed -/

/-- The accesses made so far. -/
def accessesOf (trace : List Effect) : List Access :=
  trace.filterMap fun e =>
    match e with
    | .memRead addr n => some ⟨false, addr, n⟩
    | .memWrite addr bytes => some ⟨true, addr, bytes.length⟩
    | _ => none

/-- The frames sent so far, in order (R27). -/
def sentOf (trace : List Effect) : List Frame :=
  trace.filterMap fun e =>
    match e with
    | .send f => some f
    | _ => none

/-- The assert signals issued so far (R197). -/
def assertsOf (trace : List Effect) : Nat :=
  (trace.filter fun e =>
    match e with
    | .irqAssert _ => true
    | _ => false).length

/-- The operation completes a transmit: it is `TX.SEND`, or a ctrl store that runs it, on an enabled descriptor. -/
def completesTransmit (i : Instr) (s : State) : Bool :=
  match i with
  | .loadCtrl _ => false
  | .loadStatus _ => false
  | .loadMacHi _ => false
  | .loadMacLo _ => false
  | .loadMdio _ => false
  | .loadTxdesc _ => false
  | .loadRxdesc _ => false
  | .loadUnmapped _ _ => false
  | .storeCtrl _ value => value.getLsbD 0 && (descriptorAt s.mem s.txdesc).word0.getLsbD 11
  | .storeStatus _ _ => false
  | .storeMacHi _ _ => false
  | .storeMacLo _ _ => false
  | .storeMdio _ _ => false
  | .storeTxdesc _ _ => false
  | .storeRxdesc _ _ => false
  | .storeUnmapped _ _ _ => false
  | .txOff => false
  | .txIdle => false
  | .txSend => (descriptorAt s.mem s.txdesc).word0.getLsbD 11
  | .rxCanReceive => false
  | .rxOff _ => false
  | .rxNoBuf _ => false
  | .rxDeliver _ => false
  | .mdioNoPhy _ => false
  | .mdioWrite _ => false
  | .mdioRead _ => false
  | .reset => false

/-- The operation completes a receive: it is `RX.DELIVER` with `RXEN = 1` on an enabled descriptor. -/
def completesReceive (i : Instr) (s : State) : Bool :=
  match i with
  | .loadCtrl _ => false
  | .loadStatus _ => false
  | .loadMacHi _ => false
  | .loadMacLo _ => false
  | .loadMdio _ => false
  | .loadTxdesc _ => false
  | .loadRxdesc _ => false
  | .loadUnmapped _ _ => false
  | .storeCtrl _ _ => false
  | .storeStatus _ _ => false
  | .storeMacHi _ _ => false
  | .storeMacLo _ _ => false
  | .storeMdio _ _ => false
  | .storeTxdesc _ _ => false
  | .storeRxdesc _ _ => false
  | .storeUnmapped _ _ _ => false
  | .txOff => false
  | .txIdle => false
  | .txSend => false
  | .rxCanReceive => false
  | .rxOff _ => false
  | .rxNoBuf _ => false
  | .rxDeliver _ => s.ctrl.getLsbD 1 && (descriptorAt s.mem s.rxdesc).word0.getLsbD 11
  | .mdioNoPhy _ => false
  | .mdioWrite _ => false
  | .mdioRead _ => false
  | .reset => false

/-- ctrl as it stands when the operation's engine tests it: a ctrl store's engine tests the new value (R108). -/
def ctrlInForce (i : Instr) (s : State) : Word :=
  match i with
  | .loadCtrl _ => s.ctrl
  | .loadStatus _ => s.ctrl
  | .loadMacHi _ => s.ctrl
  | .loadMacLo _ => s.ctrl
  | .loadMdio _ => s.ctrl
  | .loadTxdesc _ => s.ctrl
  | .loadRxdesc _ => s.ctrl
  | .loadUnmapped _ _ => s.ctrl
  | .storeCtrl _ value => (value &&& 0x1bf) ||| 0x08000000
  | .storeStatus _ _ => s.ctrl
  | .storeMacHi _ _ => s.ctrl
  | .storeMacLo _ _ => s.ctrl
  | .storeMdio _ _ => s.ctrl
  | .storeTxdesc _ _ => s.ctrl
  | .storeRxdesc _ _ => s.ctrl
  | .storeUnmapped _ _ _ => s.ctrl
  | .txOff => s.ctrl
  | .txIdle => s.ctrl
  | .txSend => s.ctrl
  | .rxCanReceive => s.ctrl
  | .rxOff _ => s.ctrl
  | .rxNoBuf _ => s.ctrl
  | .rxDeliver _ => s.ctrl
  | .mdioNoPhy _ => s.ctrl
  | .mdioWrite _ => s.ctrl
  | .mdioRead _ => s.ctrl
  | .reset => s.ctrl

/-- Two states with everything but the MAC address in common. -/
def withMac (s : State) (hi : BitVec 16) (lo : Word) : State := { s with macHi := hi, macLo := lo }

/-- A function on the next state, under an outcome. -/
def mapNext (f : State → State) : Host.Outcome State Fault Refusal → Host.Outcome State Fault Refusal
  | .next s => .next (f s)
  | .fault r => .fault r
  | .refused r => .refused r

end Sys2Proof.Machine
end

