-- ==== Sys2Proof/Certificates/Slice0/Obligations.lean ====
section
/-! DEFINITION. The statements for the provers. Every statement over all states holds for every value of the platform
parameters, which stand in State.cfg (log 1). Literal values are written out, so that a statement can be held beside the
rule it formalises. -/

open Sys2Proof Sys2Proof.Machine

/-! ## Encoding -/

/-- Every well-formed operation, with every operand at every value, is what its bytes decode to. The byte layout is the
model's choice (log 10); the words and masks in it are the table's (R72, R81, R82). -/
def Obligations.DecodeEncodeAgree : Prop :=
  ∀ i : Instr, i.wf = true → decode (encode i) = .ok i

/-- Whatever bytes decode, they decode to a well-formed operation, and one whose own bytes decode to it again. The byte
layout is the model's choice (log 10). -/
def Obligations.DecodedOperationsAreWellFormed : Prop :=
  ∀ (bytes : List Byte) (i : Instr), decode bytes = .ok i →
    i.wf = true ∧ (encode i).length = bytes.length ∧ decode (encode i) = .ok i

/-- Words written out from the table, one of each family, decode to their rows. The byte layout is the model's (log 10). -/
def Obligations.WordsOfTheTableDecode : Prop :=
  decode [0x0c, 0, 0, 0, 0, 4, 0, 0, 0, 0, 0, 0, 0, 0, 0, 0] = .ok (.loadMacLo 4) ∧
  decode [0x00, 0, 0, 0, 1, 4, 0, 0, 0x05, 0, 0, 0, 0, 0, 0, 0] = .ok (.storeCtrl 4 0x5) ∧
  decode [0x02, 0x08, 0, 0, 2, 0, 0, 0, 0, 0, 0, 0, 0, 0, 0, 0] = .ok (.mdioRead 0x802) ∧
  decode [0x04, 0x08, 0, 0, 4, 0, 0, 0, 0, 0, 0, 0, 0, 0, 0, 0] = .ok .txSend ∧
  decode [0x00, 0x08, 0, 0, 6, 0, 0, 0, 0, 0, 0, 0, 2, 0, 0, 0, 0xca, 0xfe] = .ok (.rxDeliver [0xca, 0xfe]) ∧
  decode [0, 0, 0, 0, 8, 0, 0, 0, 0, 0, 0, 0, 0, 0, 0, 0] = .ok .reset

/-- R72, R52: the whole offset of a bus access is compared with the seven, and selects the row, for every size and value.
That offsets which are not multiples of 4 are unmapped (the low two bits are not dropped) is the spec's own decision (D17;
log 17). -/
def Obligations.OffsetSelectsTheBusOperation : Prop :=
  ∀ (size : Byte) (value : Word),
    decodeRecord { space := .busLoadOffset, x := 0x00, size := size } = .ok (.loadCtrl size) ∧
    decodeRecord { space := .busLoadOffset, x := 0x04, size := size } = .ok (.loadStatus size) ∧
    decodeRecord { space := .busLoadOffset, x := 0x08, size := size } = .ok (.loadMacHi size) ∧
    decodeRecord { space := .busLoadOffset, x := 0x0c, size := size } = .ok (.loadMacLo size) ∧
    decodeRecord { space := .busLoadOffset, x := 0x10, size := size } = .ok (.loadMdio size) ∧
    decodeRecord { space := .busLoadOffset, x := 0x14, size := size } = .ok (.loadTxdesc size) ∧
    decodeRecord { space := .busLoadOffset, x := 0x18, size := size } = .ok (.loadRxdesc size) ∧
    decodeRecord { space := .busStoreOffset, x := 0x00, size := size, value := value } = .ok (.storeCtrl size value) ∧
    decodeRecord { space := .busStoreOffset, x := 0x04, size := size, value := value } = .ok (.storeStatus size value) ∧
    decodeRecord { space := .busStoreOffset, x := 0x08, size := size, value := value } = .ok (.storeMacHi size value) ∧
    decodeRecord { space := .busStoreOffset, x := 0x0c, size := size, value := value } = .ok (.storeMacLo size value) ∧
    decodeRecord { space := .busStoreOffset, x := 0x10, size := size, value := value } = .ok (.storeMdio size value) ∧
    decodeRecord { space := .busStoreOffset, x := 0x14, size := size, value := value } = .ok (.storeTxdesc size value) ∧
    decodeRecord { space := .busStoreOffset, x := 0x18, size := size, value := value } = .ok (.storeRxdesc size value) ∧
    ∀ offset : Word, offset ∉ ([0x00, 0x04, 0x08, 0x0c, 0x10, 0x14, 0x18] : List Word) →
      decodeRecord { space := .busLoadOffset, x := offset, size := size } = .ok (.loadUnmapped offset size) ∧
      decodeRecord { space := .busStoreOffset, x := offset, size := size, value := value } =
        .ok (.storeUnmapped offset size value)

/-- R82: the kind of an MDIO request is selected by value[15:11] and value[1] alone. -/
def Obligations.ValueSelectsTheMdioRequest : Prop :=
  ∀ value : Word,
    ((value >>> 11) &&& 0x1f ≠ 1 → decodeRecord { space := .mdioStoreValue, x := value } = .ok (.mdioNoPhy value)) ∧
    ((value >>> 11) &&& 0x1f = 1 → (value >>> 1) &&& 1 = 0 →
      decodeRecord { space := .mdioStoreValue, x := value } = .ok (.mdioWrite value)) ∧
    ((value >>> 11) &&& 0x1f = 1 → (value >>> 1) &&& 1 = 1 →
      decodeRecord { space := .mdioStoreValue, x := value } = .ok (.mdioRead value))

/-! ## Steps -/

/-- When the record the first event presents decodes to `i`, the step takes the event off the list and is `exec i`. That
events stand in a list of State is the model's choice (log 9). -/
def Obligations.StepRunsTheDecodedOperation : Prop :=
  ∀ (s : State) (e : Event) (rest : List Event) (r : OpRecord) (i : Instr),
    s.inputs = e :: rest → present e { s with inputs := rest } = .operation r → decodeRecord r = .ok i →
      step s = exec i { s with inputs := rest }

/-- The block has no step of its own (R4): with no event to serve, a step changes nothing. -/
def Obligations.NoEventNoChange : Prop :=
  ∀ s : State, s.inputs = [] → step s = .next s

/-- What each event runs, in the state with the event taken off the list: a bus access its operation of R72, on the
presented value modulo 2^32 and whatever the size (R50; D3, log 13); `canReceive` and reset theirs. -/
def Obligations.EventRunsItsOperation : Prop :=
  ∀ (s : State) (rest : List Event) (offset : Word) (size : Byte) (value : Nat),
    (s.inputs = .busLoad offset size :: rest → step s = exec (decodeBusLoad offset size) { s with inputs := rest }) ∧
    (s.inputs = .busStore offset size value :: rest →
      step s = exec (decodeBusStore offset size (BitVec.ofNat 32 value)) { s with inputs := rest }) ∧
    (s.inputs = .canReceive :: rest → step s = exec .rxCanReceive { s with inputs := rest }) ∧
    (s.inputs = .reset :: rest → step s = exec .reset { s with inputs := rest })

/-- R81: the three outcomes of each engine. A ctrl store runs, in the state with ctrl replaced, `TX.OFF`, `TX.IDLE` or
`TX.SEND` by the new ctrl[0] and then by word0[11] at txdesc; a `receive` is `RX.OFF`, `RX.NOBUF` or `RX.DELIVER` by ctrl[1]
and then by word0[11] at rxdesc; `canReceive` is `RX.CANRECEIVE`. -/
def Obligations.EngineOutcomesAreSelectedByCtrlThenWord0 : Prop :=
  ∀ (s : State) (rest : List Event) (frame : Frame) (size : Byte) (value : Word),
    (let s1 := { s with ctrl := (value &&& 0x1bf) ||| 0x08000000 }
     ((s1.ctrl.getLsbD 0 = false → exec (.storeCtrl size value) s = exec .txOff s1) ∧
      (s1.ctrl.getLsbD 0 = true → (descriptorAt s1.mem s1.txdesc).word0.getLsbD 11 = false →
        exec (.storeCtrl size value) s = exec .txIdle s1) ∧
      (s1.ctrl.getLsbD 0 = true → (descriptorAt s1.mem s1.txdesc).word0.getLsbD 11 = true →
        exec (.storeCtrl size value) s = exec .txSend s1))) ∧
    (s.inputs = .receive frame :: rest →
      let s1 := { s with inputs := rest }
      ((s1.ctrl.getLsbD 1 = false → step s = exec (.rxOff frame) s1) ∧
       (s1.ctrl.getLsbD 1 = true → (descriptorAt s1.mem s1.rxdesc).word0.getLsbD 11 = false →
         step s = exec (.rxNoBuf frame) s1) ∧
       (s1.ctrl.getLsbD 1 = true → (descriptorAt s1.mem s1.rxdesc).word0.getLsbD 11 = true →
         step s = exec (.rxDeliver frame) s1))) ∧
    (s.inputs = .canReceive :: rest → step s = exec .rxCanReceive { s with inputs := rest })

/-- The environment's moves (D14): `lower` takes the line to 0 and nothing else changes; a guest write changes the bytes
written and nothing else, its addresses counted modulo 2^32 (log 19). -/
def Obligations.EnvironmentMovesBetweenEvents : Prop :=
  ∀ (s : State) (rest : List Event) (addr : Word) (bytes : List Byte),
    (s.inputs = .lower :: rest → step s = .next { s with irq := false, inputs := rest }) ∧
    (s.inputs = .guestWrite addr bytes :: rest → s.mem.wf = true → bytes.length ≤ 2 ^ 32 →
      ∃ m, step s = .next { s with mem := m, inputs := rest } ∧
        (∀ k, k < bytes.length → m.readByte (addr + BitVec.ofNat 32 k).toNat = bytes.getD k 0) ∧
        (∀ a : Nat, (∀ k, k < bytes.length → a ≠ (addr + BitVec.ofNat 32 k).toNat) → m.readByte a = s.mem.readByte a))

/-- No input makes the block refuse (R83, R84): every event is served. -/
def Obligations.StepNeverRefuses : Prop :=
  ∀ (s : State) (r : Refusal), step s ≠ .refused r

/-! ## Faults, accesses, completion -/

/-- An operation stops in one way only, `DmaError`, and exactly when one of its guest-memory accesses is not admitted (R190,
R46; the accesses are those of the table of R53). `DmaError`, and that it leaves no next state, is the spec's own decision
(D2, log 8). -/
def Obligations.FaultsExactlyOnInadmissibleDma : Prop :=
  ∀ (i : Instr) (s : State),
    (exec i s = .fault .dmaError ↔ ∃ a ∈ dmaAccesses i s, admits s.cfg a.addr a.n = false) ∧
    (∀ r, exec i s ≠ .refused r)

/-- Every one of the 27 operations completes, in every state in which the accesses it makes are admitted; it changes neither
the platform parameters nor the events to come. What is admitted is the spec's own decision (D2; log 8). -/
def Obligations.EveryOperationCompletes : Prop :=
  ∀ (i : Instr) (s : State), (∀ a ∈ dmaAccesses i s, admits s.cfg a.addr a.n = true) →
    ∃ t, exec i s = .next t ∧ t.cfg = s.cfg ∧ t.inputs = s.inputs

/-- R53, R56: a completed operation has made exactly the accesses of the table, in the order of the steps. -/
def Obligations.AccessesAreThoseOfTheTable : Prop :=
  ∀ (i : Instr) (s t : State), exec i s = .next t → accessesOf t.trace = accessesOf s.trace ++ dmaAccesses i s

/-- What `GuestMem.admits` turns away for every platform (R46, R244, D2), what the platform turns away beyond that (single
accesses and ranges: the form is the model's choice, log 8), that it turns nothing else away, and that a range of length 0
is always admitted. -/
def Obligations.AdmitsExclusions : Prop :=
  ∀ (c : Config) (addr : Word) (n : Nat),
    admits c addr 0 = true ∧
    (2 ^ 32 < addr.toNat + n → admits c addr n = false) ∧
    (∀ a : Nat, addr.toNat ≤ a → a < addr.toNat + n → c.regBase.toNat ≤ a → a < c.regBase.toNat + c.regWindowSize →
      admits c addr n = false) ∧
    (∀ a : Nat, addr.toNat ≤ a → a < addr.toNat + n → (∃ h ∈ c.holes, h.1 ≤ a ∧ a < h.1 + h.2) →
      admits c addr n = false) ∧
    (0 < n → (addr, n) ∈ c.turnedAway → admits c addr n = false) ∧
    (addr.toNat + n ≤ 2 ^ 32 →
      (∀ a : Nat, addr.toNat ≤ a → a < addr.toNat + n →
        ¬ (c.regBase.toNat ≤ a ∧ a < c.regBase.toNat + c.regWindowSize) ∧ ∀ h ∈ c.holes, ¬ (h.1 ≤ a ∧ a < h.1 + h.2)) →
      (addr, n) ∉ c.turnedAway → admits c addr n = true)

/-- Every byte of guest memory that an operation does not store to reads as before, for every operation; the bytes stored to
are those of the write accesses, at the addresses the meaning computes (R53: transmit the 4 bytes at txdesc; receive the
frame's bytes at word1 and the 4 bytes at rxdesc). -/
def Obligations.MemoryFrame : Prop :=
  ∀ (i : Instr) (s t : State), exec i s = .next t →
    ∀ a : Nat, ¬ storedTo i s a → t.mem.readByte a = s.mem.readByte a

/-! ## Loads and plain stores -/

/-- R100 to R106, D5: a load of each of the seven offsets returns its register, with no side effect, for every size. That
the value returned is recorded in the trace is the model's choice (log 11). -/
def Obligations.LoadsReturnTheirRegister : Prop :=
  ∀ (size : Byte) (s : State),
    exec (.loadCtrl size) s = .next { s with trace := s.trace ++ [.loadReturn s.ctrl] } ∧
    exec (.loadStatus size) s = .next { s with trace := s.trace ++ [.loadReturn s.status] } ∧
    exec (.loadMacHi size) s = .next { s with trace := s.trace ++ [.loadReturn (s.macHi.setWidth 32)] } ∧
    exec (.loadMacLo size) s = .next { s with trace := s.trace ++ [.loadReturn s.macLo] } ∧
    exec (.loadMdio size) s = .next { s with trace := s.trace ++ [.loadReturn s.mdio] } ∧
    exec (.loadTxdesc size) s = .next { s with trace := s.trace ++ [.loadReturn s.txdesc] } ∧
    exec (.loadRxdesc size) s = .next { s with trace := s.trace ++ [.loadReturn s.rxdesc] }

/-- R107, R115: an access to any other offset never fails: a load returns 0, a store is ignored; both are logged (the log is
an observation, D15, log 11). -/
def Obligations.UnmappedAccessesNeverFail : Prop :=
  ∀ (offset : Word) (size : Byte) (value : Word) (s : State),
    exec (.loadUnmapped offset size) s =
      .next { s with trace := s.trace ++ [.unhandledLoad offset, .loadReturn 0] } ∧
    exec (.storeUnmapped offset size value) s = .next { s with trace := s.trace ++ [.unhandledStore offset] }

/-- R109: a status store clears exactly the bits set in the value and changes nothing else; it lowers no line and runs no
engine. -/
def Obligations.StatusStoreIsWriteOneToClear : Prop :=
  ∀ (size : Byte) (value : Word) (s : State),
    ∃ t, exec (.storeStatus size value) s = .next t ∧ t = { s with status := t.status } ∧
      ∀ k, t.status.getLsbD k = (s.status.getLsbD k && !value.getLsbD k)

/-- R110, R111, D6: the MAC stores, and that they change nothing else. -/
def Obligations.MacStoresReplaceTheirHalf : Prop :=
  ∀ (size : Byte) (value : Word) (s : State),
    (∃ t, exec (.storeMacHi size value) s = .next t ∧ t = { s with macHi := t.macHi } ∧
      t.macHi.toNat = value.toNat % 2 ^ 16) ∧
    exec (.storeMacLo size value) s = .next { s with macLo := value }

/-- R113: a store to txdesc takes the value with its low two bits cleared, and changes nothing else: no transaction runs,
whatever ctrl says. It is the only way the ring base page (bits 31:10 of txdesc) changes. -/
def Obligations.TxdescStoreClearsTheLowBits : Prop :=
  (∀ (size : Byte) (value : Word) (s : State),
    exec (.storeTxdesc size value) s = .next { s with txdesc := value &&& 0xfffffffc }) ∧
  ∀ (i : Instr) (s t : State), exec i s = .next t → (∀ size v, i ≠ .storeTxdesc size v) →
    t.txdesc >>> 10 = s.txdesc >>> 10

/-- R114: a store to rxdesc takes the value with its low two bits cleared, and changes nothing else: no frame is delivered,
and ctrl, which `canReceive` answers from, stays. It is the only way the ring base page of rxdesc changes. -/
def Obligations.RxdescStoreClearsTheLowBits : Prop :=
  (∀ (size : Byte) (value : Word) (s : State),
    exec (.storeRxdesc size value) s = .next { s with rxdesc := value &&& 0xfffffffc }) ∧
  ∀ (i : Instr) (s t : State), exec i s = .next t → (∀ size v, i ≠ .storeRxdesc size v) →
    t.rxdesc >>> 10 = s.rxdesc >>> 10

/-- R116: the readback law. Where a store of an offset completes, a load of the same offset then returns what the law says;
the ctrl law holds even when the store ran a transmit transaction. That a load has no side effect and how the MAC registers
read back are the spec's own decisions (D5, D6; logs 14, 15). -/
def Obligations.ReadbackLaw : Prop :=
  ∀ (size size' : Byte) (v : Word) (s t : State),
    (exec (.storeCtrl size v) s = .next t →
      exec (.loadCtrl size') t = .next (t.emit (.loadReturn ((v &&& 0x1bf) ||| 0x08000000)))) ∧
    (exec (.storeStatus size v) s = .next t →
      exec (.loadStatus size') t = .next (t.emit (.loadReturn (s.status &&& ~~~v)))) ∧
    (exec (.storeMacHi size v) s = .next t →
      exec (.loadMacHi size') t = .next (t.emit (.loadReturn (v &&& 0xffff)))) ∧
    (exec (.storeMacLo size v) s = .next t → exec (.loadMacLo size') t = .next (t.emit (.loadReturn v))) ∧
    (exec (.storeMdio size v) s = .next t →
      exec (.loadMdio size') t = .next (t.emit (.loadReturn (mdioResult s.cfg v)))) ∧
    (exec (.storeTxdesc size v) s = .next t →
      exec (.loadTxdesc size') t = .next (t.emit (.loadReturn (v &&& 0xfffffffc)))) ∧
    (exec (.storeRxdesc size v) s = .next t →
      exec (.loadRxdesc size') t = .next (t.emit (.loadReturn (v &&& 0xfffffffc))))

/-- R117: which operation can change which register. That reset, of which R117 does not speak, leaves the MAC address and
the line as they are is the spec's own decision (D7, D9; log 16). -/
def Obligations.RegistersAreIndependent : Prop :=
  ∀ (i : Instr) (s t : State), exec i s = .next t →
    ((∀ size v, i ≠ .storeCtrl size v) → i ≠ .reset → t.ctrl = s.ctrl) ∧
    ((∀ size v, i ≠ .storeMacHi size v) → t.macHi = s.macHi) ∧
    ((∀ size v, i ≠ .storeMacLo size v) → t.macLo = s.macLo) ∧
    ((∀ size v, i ≠ .storeMdio size v) → (∀ v, i ≠ .mdioNoPhy v ∧ i ≠ .mdioWrite v ∧ i ≠ .mdioRead v) → i ≠ .reset →
      t.mdio = s.mdio) ∧
    ((∀ size v, i ≠ .storeTxdesc size v) → completesTransmit i s = false → t.txdesc = s.txdesc) ∧
    ((∀ size v, i ≠ .storeRxdesc size v) → completesReceive i s = false → t.rxdesc = s.rxdesc) ∧
    ((∀ size v, i ≠ .storeStatus size v) → i ≠ .reset → completesTransmit i s = false → completesReceive i s = false →
      t.status = s.status) ∧
    (completesTransmit i s = false → completesReceive i s = false → t.irq = s.irq)

/-! ## Transmit -/

/-- R108: a ctrl store whose accesses are admitted replaces ctrl by the masked value with bit 27 set, whatever the
transaction does, and leaves the MAC address, mdio, rxdesc, the frame-received flag and the reserved status bits as they
were. -/
def Obligations.CtrlStoreReplacesCtrl : Prop :=
  ∀ (size : Byte) (value : Word) (s : State), dmaAdmitted (.storeCtrl size value) s →
    ∃ t, exec (.storeCtrl size value) s = .next t ∧
      t.ctrl = (value &&& 0x000001bf) ||| 0x08000000 ∧
      t.macHi = s.macHi ∧ t.macLo = s.macLo ∧ t.mdio = s.mdio ∧ t.rxdesc = s.rxdesc ∧ t.cfg = s.cfg ∧
      (∀ k, k ≠ 3 → t.status.getLsbD k = s.status.getLsbD k)

/-- R130: `TX.OFF` stops: nothing at all is done; and so a ctrl store whose new `TXEN` is 0 changes ctrl only. -/
def Obligations.TransmitOffDoesNothing : Prop :=
  ∀ s : State, exec .txOff s = .next s ∧
    ∀ (size : Byte) (value : Word), value.getLsbD 0 = false →
      exec (.storeCtrl size value) s = .next { s with ctrl := (value &&& 0x000001bf) ||| 0x08000000 }

/-- R132: `TX.IDLE` makes the eight-byte read at txdesc and does nothing else, or the event is `DmaError` if that read is
not admitted; and so a ctrl store with `TXEN` on a disabled descriptor changes ctrl only, whatever else the descriptor
holds. That an access not admitted ends the event as `DmaError` is the spec's own decision (D2; log 8). -/
def Obligations.TransmitIdleOnlyReads : Prop :=
  ∀ s : State,
    (admits s.cfg s.txdesc 8 = true →
      exec .txIdle s = .next { s with trace := s.trace ++ [.memRead s.txdesc 8] }) ∧
    (admits s.cfg s.txdesc 8 = false → exec .txIdle s = .fault .dmaError) ∧
    ∀ (size : Byte) (value : Word), value.getLsbD 0 = true → (descriptorAt s.mem s.txdesc).word0.getLsbD 11 = false →
      admits s.cfg s.txdesc 8 = true →
        exec (.storeCtrl size value) s =
          .next { s with
            ctrl := (value &&& 0x000001bf) ||| 0x08000000
            trace := s.trace ++ [.memRead s.txdesc 8] }

/-- R131: the whole transmit transaction, step by step, from the fetched descriptor to the interrupt; the early exit at step
2; and that it is `DmaError` if an access it makes is not admitted. `DmaError` is the spec's own decision D2 (log 8), and
one assert signal for each completion, also while the line is high, its decision D9 (log 6). -/
def Obligations.TransmitTransaction : Prop :=
  ∀ s : State,
    let p := s.txdesc
    let d := descriptorAt s.mem p
    let L := (d.word0 &&& 0x7ff).toNat
    (d.word0.getLsbD 11 = false → admits s.cfg p 8 = true →
      exec .txSend s = .next { s with trace := s.trace ++ [.memRead p 8] }) ∧
    (d.word0.getLsbD 11 = true → admits s.cfg p 8 = true → admits s.cfg d.word1 L = true → admits s.cfg p 4 = true →
      exec .txSend s =
        .next { s with
          mem := s.mem.writeRange p.toNat [0, 0, 0, 0]
          txdesc :=
            if d.word0.getLsbD 12 then p &&& 0xfffffc00
            else (p &&& 0xfffffc00) ||| ((p + 8) &&& 0x3ff)
          status := s.status ||| 0x8
          irq := s.irq || s.ctrl.getLsbD 2
          trace := s.trace ++
            [.memRead p 8, .memRead d.word1 L, .send (s.mem.readRange d.word1.toNat L), .memWrite p [0, 0, 0, 0]] ++
            (if s.ctrl.getLsbD 2 then [.irqAssert s.cfg.irqLine] else []) }) ∧
    (admits s.cfg p 8 = false ∨
      (d.word0.getLsbD 11 = true ∧ (admits s.cfg d.word1 L = false ∨ admits s.cfg p 4 = false)) →
      exec .txSend s = .fault .dmaError)

/-- R137: after a completed transmit the four bytes of word0 are zero and every other byte of memory reads as before, word1
included; the store's address is the value txdesc had. -/
def Obligations.TransmitZeroesWord0Only : Prop :=
  ∀ (i : Instr) (s t : State), s.mem.wf = true → completesTransmit i s = true → exec i s = .next t →
    (∀ k, k < 4 → t.mem.readByte (s.txdesc.toNat + k) = 0) ∧
    (∀ a : Nat, ¬ (s.txdesc.toNat ≤ a ∧ a < s.txdesc.toNat + 4) → t.mem.readByte a = s.mem.readByte a)

/-- R136, R48 (byte order: D20, log 23): byte k of the frame sent is the byte at word1 + k as it was before the write-back
(R64), and the frame has L bytes, at most 2047 (R135). -/
def Obligations.SentFrameIsTheMemoryAtWord1 : Prop :=
  ∀ (i : Instr) (s t : State), completesTransmit i s = true → exec i s = .next t →
    ∃ f : Frame, sentOf t.trace = sentOf s.trace ++ [f] ∧
      f.length = (descriptorAt s.mem s.txdesc).word0.toNat % 2048 ∧ f.length ≤ 2047 ∧
      ∀ k, k < f.length → f.getD k 0 = s.mem.readByte ((descriptorAt s.mem s.txdesc).word1.toNat + k)

/-- R141: each ctrl store processes at most one descriptor, the one at txdesc: where it completes a transmit it has sent one
frame, touched no memory but that descriptor's eight bytes and its buffer, and moved txdesc by one `Advance`; otherwise it
has sent nothing and txdesc stays. Only ctrl stores, and `TX.SEND`, which is their second half, send. -/
def Obligations.OneDescriptorPerStore : Prop :=
  ∀ (i : Instr) (s t : State), exec i s = .next t →
    let d := descriptorAt s.mem s.txdesc
    (completesTransmit i s = true →
      (∃ f, sentOf t.trace = sentOf s.trace ++ [f]) ∧
      accessesOf t.trace = accessesOf s.trace ++
        [⟨false, s.txdesc, 8⟩, ⟨false, d.word1, d.word0.toNat % 2048⟩, ⟨true, s.txdesc, 4⟩] ∧
      t.txdesc = advance s.txdesc (d.word0.getLsbD 12)) ∧
    (completesTransmit i s = false →
      sentOf t.trace = sentOf s.trace ∧ ((∀ size v, i ≠ .storeTxdesc size v) → t.txdesc = s.txdesc))

/-! ## Ring advance -/

/-- R140: the properties of `Advance`: it stays in the 1024-byte window of `p`, keeps multiples of 4 (and of 8), returns to
the window's base on `WR`, and otherwise adds 8 modulo 1024 inside the window. -/
def Obligations.AdvanceStaysInTheWindow : Prop :=
  ∀ (p : Word) (w : Bool),
    (advance p w).toNat / 1024 = p.toNat / 1024 ∧
    (p.toNat % 4 = 0 → (advance p w).toNat % 4 = 0) ∧
    (p.toNat % 8 = 0 → (advance p w).toNat % 8 = 0) ∧
    (advance p true).toNat % 1024 = 0 ∧
    (advance p false).toNat % 1024 = (p.toNat % 1024 + 8) % 1024

/-- R140: without `WR` the pointer returns to its starting value after 128 advances, and not before: a ring with no `WR`
descriptor has 128 slots. -/
def Obligations.RingWithoutWrapHas128Slots : Prop :=
  ∀ (p : Word) (k : Nat), 0 < k → k ≤ 128 → ((fun q => advance q false)^[k] p = p ↔ k = 128)

/-! ## Receive -/

/-- R150: `canReceive()` answers ctrl[1] and does nothing else; the ring is not looked at. -/
def Obligations.CanReceiveAnswersRxen : Prop :=
  ∀ s : State,
    exec .rxCanReceive s = .next { s with trace := s.trace ++ [.canReceiveReturn (s.ctrl.getLsbD 1)] }

/-- R152: `RX.OFF` returns 0 and does nothing else. -/
def Obligations.ReceiveOffRejects : Prop :=
  ∀ (frame : Frame) (s : State),
    exec (.rxOff frame) s = .next { s with trace := s.trace ++ [.receiveReturn 0] }

/-- R153: `RX.NOBUF` makes the eight-byte read at rxdesc, returns 0 and does nothing else, or the event is `DmaError` if
that read is not admitted. (With `RXEN` 0, where `receive` is `RX.OFF`, its first line returns 0.) `DmaError` is the spec's
own decision (D2; log 8). -/
def Obligations.ReceiveNoBufferOnlyReads : Prop :=
  ∀ (frame : Frame) (s : State),
    (s.ctrl.getLsbD 1 = true → admits s.cfg s.rxdesc 8 = true →
      exec (.rxNoBuf frame) s = .next { s with trace := s.trace ++ [.memRead s.rxdesc 8, .receiveReturn 0] }) ∧
    (s.ctrl.getLsbD 1 = true → admits s.cfg s.rxdesc 8 = false → exec (.rxNoBuf frame) s = .fault .dmaError) ∧
    (s.ctrl.getLsbD 1 = false →
      exec (.rxNoBuf frame) s = .next { s with trace := s.trace ++ [.receiveReturn 0] })

/-- R151: the whole of `receive(frame)`: the two early exits, the delivery step by step, and that it is `DmaError` if an
access it makes is not admitted. Decisions of the spec's own: `WR` is that of the fetched word0 (D18; log 21), the length is
taken modulo 2^32 (D13; log 18), `DmaError` (D2; log 8), one assert signal for each completion, also while the line is high
(D9; log 6). -/
def Obligations.ReceiveTransaction : Prop :=
  ∀ (frame : Frame) (s : State),
    let n := frame.length
    let p := s.rxdesc
    let d := descriptorAt s.mem p
    let w := be32bytes (BitVec.ofNat 32 n)
    (s.ctrl.getLsbD 1 = false →
      exec (.rxDeliver frame) s = .next { s with trace := s.trace ++ [.receiveReturn 0] }) ∧
    (s.ctrl.getLsbD 1 = true → d.word0.getLsbD 11 = false → admits s.cfg p 8 = true →
      exec (.rxDeliver frame) s = .next { s with trace := s.trace ++ [.memRead p 8, .receiveReturn 0] }) ∧
    (s.ctrl.getLsbD 1 = true → d.word0.getLsbD 11 = true →
      admits s.cfg p 8 = true → admits s.cfg d.word1 n = true → admits s.cfg p 4 = true →
      exec (.rxDeliver frame) s =
        .next { s with
          mem := (s.mem.writeRange d.word1.toNat frame).writeRange p.toNat w
          rxdesc :=
            if d.word0.getLsbD 12 then p &&& 0xfffffc00
            else (p &&& 0xfffffc00) ||| ((p + 8) &&& 0x3ff)
          status := s.status ||| 0x4
          irq := s.irq || s.ctrl.getLsbD 3
          trace := s.trace ++ [.memRead p 8, .memWrite d.word1 frame, .memWrite p w] ++
            (if s.ctrl.getLsbD 3 then [.irqAssert s.cfg.irqLine] else []) ++ [.receiveReturn n] }) ∧
    (s.ctrl.getLsbD 1 = true →
      (admits s.cfg p 8 = false ∨
        (d.word0.getLsbD 11 = true ∧ (admits s.cfg d.word1 n = false ∨ admits s.cfg p 4 = false))) →
      exec (.rxDeliver frame) s = .fault .dmaError)

/-- R154, R155, R64 (byte order: D20, log 23; length modulo 2^32: D13, log 18): where a delivered frame lands. Word0 at
rxdesc holds the four bytes of the frame's length; every other byte of the frame's range holds the frame's byte; every byte
outside both reads as before, word1 included unless the frame covers it. -/
def Obligations.DeliveredFrameLandsAtWord1 : Prop :=
  ∀ (frame : Frame) (s t : State), s.mem.wf = true → completesReceive (.rxDeliver frame) s = true →
    exec (.rxDeliver frame) s = .next t →
    (∀ k, k < 4 → t.mem.readByte (s.rxdesc.toNat + k) = (be32bytes (BitVec.ofNat 32 frame.length)).getD k 0) ∧
    (∀ k, k < frame.length →
      ¬ (s.rxdesc.toNat ≤ (descriptorAt s.mem s.rxdesc).word1.toNat + k ∧
          (descriptorAt s.mem s.rxdesc).word1.toNat + k < s.rxdesc.toNat + 4) →
      t.mem.readByte ((descriptorAt s.mem s.rxdesc).word1.toNat + k) = frame.getD k 0) ∧
    (∀ a : Nat, ¬ (s.rxdesc.toNat ≤ a ∧ a < s.rxdesc.toNat + 4) →
      ¬ ((descriptorAt s.mem s.rxdesc).word1.toNat ≤ a ∧
          a < (descriptorAt s.mem s.rxdesc).word1.toNat + frame.length) →
      t.mem.readByte a = s.mem.readByte a)

/-- R155, R236: the written-back word0, read again as a descriptor, is the bare length: below 2048 it has `EN` 0, `WR` 0 and
the length; from 2048 to 4095 it has `EN` 1; from 4096 to 8191 `WR` 1. The length is taken modulo 2^32 (D13; log 18). -/
def Obligations.WriteBackReadAsADescriptor : Prop :=
  ∀ (frame : Frame) (s t : State), s.mem.wf = true → completesReceive (.rxDeliver frame) s = true →
    exec (.rxDeliver frame) s = .next t →
    (descriptorAt t.mem s.rxdesc).word0 = BitVec.ofNat 32 frame.length ∧
    (frame.length < 2048 →
      (descriptorAt t.mem s.rxdesc).word0.getLsbD 11 = false ∧ (descriptorAt t.mem s.rxdesc).word0.getLsbD 12 = false ∧
        ((descriptorAt t.mem s.rxdesc).word0 &&& 0x7ff).toNat = frame.length) ∧
    (2048 ≤ frame.length → frame.length < 4096 →
      (descriptorAt t.mem s.rxdesc).word0.getLsbD 11 = true ∧ (descriptorAt t.mem s.rxdesc).word0.getLsbD 12 = false) ∧
    (4096 ≤ frame.length → frame.length < 8192 → (descriptorAt t.mem s.rxdesc).word0.getLsbD 12 = true)

/-- R153, R227: with a Network Port that keeps its bound and `MAX_RX_FRAME` below 2048 (the hypothesis D13 asks for), a
delivered frame's slot is never found enabled by the next `receive` at it. -/
def Obligations.BoundedPortHandsTheSlotBack : Prop :=
  ∀ (frame : Frame) (s t : State), s.mem.wf = true → s.cfg.maxRxFrame.toNat < 2048 →
    Event.allowed s.cfg (.receive frame) = true → completesReceive (.rxDeliver frame) s = true →
    exec (.rxDeliver frame) s = .next t →
    ∀ frame' : Frame, ∀ u : State, u.mem = t.mem → u.rxdesc = s.rxdesc → u.ctrl.getLsbD 1 = true →
      decodeRecord (receiveRecord frame' u) = .ok (.rxNoBuf frame')

/-- R47: descriptors are big-endian: the byte at the lowest address is the most significant of word0. -/
def Obligations.DescriptorsAreBigEndian : Prop :=
  ∀ (m : Memory) (p : Word),
    (descriptorAt m p).word0.toNat =
      (m.readByte p.toNat).toNat * 2 ^ 24 + (m.readByte (p.toNat + 1)).toNat * 2 ^ 16 +
        (m.readByte (p.toNat + 2)).toNat * 2 ^ 8 + (m.readByte (p.toNat + 3)).toNat ∧
    (descriptorAt m p).word1.toNat =
      (m.readByte (p.toNat + 4)).toNat * 2 ^ 24 + (m.readByte (p.toNat + 5)).toNat * 2 ^ 16 +
        (m.readByte (p.toNat + 6)).toNat * 2 ^ 8 + (m.readByte (p.toNat + 7)).toNat

/-! ## MDIO -/

/-- R112, R170: an mdio store replaces mdio by `MdioResult(value)` and changes nothing else; the PHY address is tested
first. -/
def Obligations.MdioStoreHoldsTheResult : Prop :=
  ∀ (size : Byte) (value : Word) (s : State),
    exec (.storeMdio size value) s =
      .next { s with
        mdio :=
          if (value >>> 11) &&& 0x1f ≠ 1 then (value &&& 0xffffffc0) ||| 0xffff0004
          else if (value >>> 1) &&& 1 = 0 then value &&& 0xffffffc0
          else (value &&& 0x0000ffc0) ||| ((phyTable s.cfg (value.extractLsb' 6 5)).setWidth 32 <<< 16) }

/-- R171 to R173: the three requests, each replacing mdio by its formula and changing nothing else: the PHY table least of
all. Entry 0 of the table is 0x1140 on every platform (R174). -/
def Obligations.MdioRequestResults : Prop :=
  ∀ (value : Word) (s : State),
    exec (.mdioNoPhy value) s = .next { s with mdio := (value &&& 0xffffffc0) ||| 0xffff0004 } ∧
    exec (.mdioWrite value) s = .next { s with mdio := value &&& 0xffffffc0 } ∧
    exec (.mdioRead value) s =
      .next { s with mdio := (value &&& 0x0000ffc0) ||| ((phyTable s.cfg (value.extractLsb' 6 5)).setWidth 32 <<< 16) } ∧
    phyTable s.cfg 0 = 0x1140

/-- R171: the link-fail result in full: bits 31:16 are 0xffff, bits 15:6 as written, bits 5:0 are 0x04. R176: no result has
a busy or not-valid bit. -/
def Obligations.MdioResultLayout : Prop :=
  ∀ (value : Word) (s t : State) (size : Byte), exec (.storeMdio size value) s = .next t →
    t.mdio.extractLsb' 6 10 = value.extractLsb' 6 10 ∧
    t.mdio &&& 0x3b = 0 ∧
    (t.mdio.getLsbD 2 = true ↔ (value >>> 11) &&& 0x1f ≠ 1) ∧
    ((value >>> 11) &&& 0x1f ≠ 1 → t.mdio >>> 16 = 0xffff) ∧
    ((value >>> 11) &&& 0x1f = 1 → (value >>> 1) &&& 1 = 0 → t.mdio >>> 16 = value >>> 16) ∧
    ((value >>> 11) &&& 0x1f = 1 → (value >>> 1) &&& 1 = 1 →
      t.mdio >>> 16 = (phyTable s.cfg (value.extractLsb' 6 5)).setWidth 32)

/-! ## Reset -/

/-- R220: RESET. That the MAC address and the line are unchanged is the spec's own decision (D7, D9; log 16). -/
def Obligations.ResetRestoresCtrlStatusMdio : Prop :=
  ∀ s : State, exec .reset s = .next { s with ctrl := 0x08000000, status := 0, mdio := 0 }

/-- R221, R29: power-on on every platform: ctrl, status and mdio as after RESET, the pointers at the platform's values, the
line low, nothing done yet; one more RESET changes nothing. The values of the platform parameters of State.reset are the
model's choice (logs 2, 4, 5), and so are empty memory (log 7) and the empty lists (logs 9, 11). The MAC clause is stated
through the byte-array view `macBytes`, the spec's own decision D6 (log 15); that power-on is creation followed by one reset
is its decision D16 (log 26), and that the address and the line pass it unchanged D7 and D9 (log 16). -/
def Obligations.PowerOnValues : Prop :=
  ∀ c : Config, c.wf = true →
    (State.powerOn c).ctrl = 0x08000000 ∧ (State.powerOn c).status = 0 ∧ (State.powerOn c).mdio = 0 ∧
    (State.powerOn c).txdesc = c.txdescPowerOn ∧ (State.powerOn c).rxdesc = c.rxdescPowerOn ∧
    macBytes (State.powerOn c).macHi (State.powerOn c).macLo = c.macDefault ∧
    (State.powerOn c).irq = false ∧ (State.powerOn c).trace = [] ∧
    exec .reset (State.powerOn c) = .next (State.powerOn c)

/-! ## Flags and the interrupt line -/

/-- R13, R21, R138, R157: only the engines set status bits: bit 3 on a completed transmit, bit 2 on a completed receive,
whatever the interrupt enables say; no operation sets any other bit; a completed transaction leaves its flag 1. -/
def Obligations.StatusBitsAreSetByTheEnginesOnly : Prop :=
  ∀ (i : Instr) (s t : State), exec i s = .next t →
    (∀ k, t.status.getLsbD k = true → s.status.getLsbD k = true ∨
      (k = 3 ∧ completesTransmit i s = true) ∨ (k = 2 ∧ completesReceive i s = true)) ∧
    (completesTransmit i s = true → t.status.getLsbD 3 = true ∧ ∀ k, k ≠ 3 → t.status.getLsbD k = s.status.getLsbD k) ∧
    (completesReceive i s = true → t.status.getLsbD 2 = true ∧ ∀ k, k ≠ 2 → t.status.getLsbD k = s.status.getLsbD k)

/-- R195, R196, R197: the line is asserted, with one assert signal each time, at the end of a completed transmit or receive
whose enable bit of ctrl is set at that moment (for a ctrl store, of the ctrl just written), and by nothing else. One signal
for each completion is the spec's own decision (D9, log 6). -/
def Obligations.AssertedExactlyOnEnabledCompletion : Prop :=
  ∀ (i : Instr) (s t : State), exec i s = .next t →
    if (completesTransmit i s && (ctrlInForce i s).getLsbD 2) || (completesReceive i s && (ctrlInForce i s).getLsbD 3) then
      t.irq = true ∧ assertsOf t.trace = assertsOf s.trace + 1
    else t.irq = s.irq ∧ assertsOf t.trace = assertsOf s.trace

/-- R198: no operation of the block lowers the line; a step that finds it high and leaves it low served the consumer's
`lower`. That the level comes down so and no other way is the spec's own decision (D9, log 6). -/
def Obligations.OnlyTheConsumerLowersTheLine : Prop :=
  (∀ (i : Instr) (s t : State), exec i s = .next t → s.irq = true → t.irq = true) ∧
  (∀ s t : State, step s = .next t → s.irq = true → t.irq = false → s.inputs.head? = some .lower)

/-- R14: in a state that meets the invariant, a load of status returns 0x0, 0x4, 0x8 or 0xc. -/
def Obligations.StatusReadsAsOneOfFour : Prop :=
  ∀ (s : State) (size : Byte), Inv s →
    ∃ v ∈ ([0x0, 0x4, 0x8, 0xc] : List Word), exec (.loadStatus size) s = .next (s.emit (.loadReturn v))

/-! ## The whole machine -/

/-- The invariant (R12, R14, R17, R19, and the canonical form of memory) holds at power-on on every platform. That the
pointers' low bits are clear at power-on for any parameter is the model's choice (log 5), the form of memory too (log 7). -/
def Obligations.PowerOnMeetsTheInvariant : Prop :=
  (∀ c : Config, Inv (State.powerOn c)) ∧ Inv State.reset

/-- Every step keeps the invariant: R12 ctrl, R14 status, R17 mdio, R19 the pointers, and memory's canonical form (the form
is the model's, log 7). -/
def Obligations.StepKeepsTheInvariant : Prop :=
  ∀ s t : State, Inv s → step s = .next t → Inv t

/-- R242, R15: nothing but the two MAC loads depends on the MAC address: every other operation does the same whatever the
address is, and leaves it as it was unless it is a MAC store. That reset leaves it is the spec's own decision (D7; log 16).
-/
def Obligations.MacAddressDoesNotInterfere : Prop :=
  ∀ (i : Instr) (s : State) (hi : BitVec 16) (lo : Word),
    (∀ size, i ≠ .loadMacHi size) → (∀ size, i ≠ .loadMacLo size) →
    (∀ size v, i ≠ .storeMacHi size v) → (∀ size v, i ≠ .storeMacLo size v) →
      exec i (withMac s hi lo) = mapNext (fun t => withMac t hi lo) (exec i s)

/-- R21, R14: no operation but the load of status reads the status bits: any other completes whatever they are, and leaves
everything but status the same. -/
def Obligations.StatusIsReadByNoOtherOperation : Prop :=
  ∀ (i : Instr) (s t : State) (status : Word), (∀ size, i ≠ .loadStatus size) → exec i s = .next t →
    ∃ u, exec i { s with status := status } = .next u ∧ { u with status := 0 } = { t with status := 0 }

/-- The platform parameters, and with them the PHY table (R22), never change; each step serves at most the first event. That
the parameters are a field of State is the model's choice (log 1), and so is the list of events that a step serves the first
of (log 9). -/
def Obligations.ParametersAreConstant : Prop :=
  ∀ s t : State, step s = .next t → t.cfg = s.cfg ∧ t.inputs = s.inputs.tail

/-- R27, R57: what has been observed is never taken back: a step only adds to the trace. -/
def Obligations.TraceOnlyGrows : Prop :=
  ∀ s t : State, step s = .next t → ∃ more, t.trace = s.trace ++ more

/-- R63: doing any of these twice leaves the state as once, but for the trace: a store to status, a MAC half, a pointer,
mdio or an unmapped offset, a ctrl store whose new `TXEN` is 0, a load, `canReceive`, reset. -/
def Obligations.IdempotentOperations : Prop :=
  ∀ (i : Instr) (s t : State), (∀ v size, i = .storeCtrl size v → v.getLsbD 0 = false) →
    i ≠ .txIdle → i ≠ .txSend → (∀ f, i ≠ .rxOff f ∧ i ≠ .rxNoBuf f ∧ i ≠ .rxDeliver f) →
    exec i s = .next t → ∃ u, exec i t = .next u ∧ { u with trace := [] } = { t with trace := [] }

/-- R3, D2: the platform's part of `GuestMem.admits` is an arbitrary predicate on the address and the number of bytes.
Whatever the predicate, there is a platform, the same in everything else, whose accessor admits exactly what the predicate
and the fixed constraints of R46 admit. That the predicate is held as a list of accesses is the model's choice (log 8). -/
def Obligations.EveryAccessorIsSomePlatform : Prop :=
  ∀ (c : Config) (p : Word → Nat → Bool), ∃ l : List (Word × Nat), ∀ (addr : Word) (n : Nat),
    admits { c with turnedAway := l, holes := [] } addr n = true ↔
      n = 0 ∨
        (addr.toNat + n ≤ 2 ^ 32 ∧
          (∀ a : Nat, addr.toNat ≤ a → a < addr.toNat + n →
            ¬ (c.regBase.toNat ≤ a ∧ a < c.regBase.toNat + c.regWindowSize)) ∧
          p addr n = true)
end

