-- ==== Sys2Proof/Laws/Memory.lean ====
section
/-! SUPPORT. Guest memory: reading after writing, and that every operation keeps the canonical form. -/

namespace Sys2Proof.Machine

/-- Writing one byte leaves every other address alone, in any list. -/
theorem readByte_writeByte_other (m : Memory) {a b : Nat} (v : Byte) (h : b ≠ a) :
    (m.writeByte a v).readByte b = m.readByte b := by
  induction m with
  | nil =>
    unfold Memory.writeByte
    split <;> simp [Memory.readByte, h]
  | cons c rest ih =>
    obtain ⟨k, w⟩ := c
    unfold Memory.writeByte
    split
    · split <;> simp [Memory.readByte, h]
    · split
      · split <;> simp_all [Memory.readByte]
      · simp [Memory.readByte, ih]

/-- Below the first address of a canonical list nothing is listed. -/
theorem readByte_of_wfFrom_lt {m : Memory} {lo a : Nat} (hm : m.wfFrom lo = true) (h : a < lo) :
    m.readByte a = unlistedByte := by
  induction m generalizing lo with
  | nil => rfl
  | cons c rest ih =>
    obtain ⟨k, w⟩ := c
    simp only [Memory.wfFrom, Bool.and_eq_true, decide_eq_true_eq] at hm
    have hk : a ≠ k := by omega
    simp only [Memory.readByte, hk, if_false]
    exact ih hm.2 (by omega)

/-- In the canonical form, the byte written is the byte read. -/
theorem readByte_writeByte_same {m : Memory} {lo a : Nat} (v : Byte) (hm : m.wfFrom lo = true) :
    (m.writeByte a v).readByte a = v := by
  induction m generalizing lo with
  | nil =>
    unfold Memory.writeByte
    split <;> simp_all [Memory.readByte]
  | cons c rest ih =>
    obtain ⟨k, w⟩ := c
    simp only [Memory.wfFrom, Bool.and_eq_true, decide_eq_true_eq] at hm
    have hbelow (h : a < k + 1) : Memory.readByte rest a = unlistedByte := readByte_of_wfFrom_lt hm.2 h
    unfold Memory.writeByte
    split
    · split
      · have hk : a ≠ k := by omega
        simp_all [Memory.readByte]
        exact hbelow (by omega)
      · simp [Memory.readByte]
    · split
      · split
        · simp_all
        · simp [Memory.readByte]
      · have hk : a ≠ k := by omega
        simp only [Memory.readByte, hk, if_false]
        exact ih hm.2

theorem wfFrom_mono {m : Memory} {lo lo' : Nat} (hm : m.wfFrom lo = true) (h : lo' ≤ lo) : m.wfFrom lo' = true := by
  cases m with
  | nil => rfl
  | cons c rest =>
    obtain ⟨k, w⟩ := c
    simp only [Memory.wfFrom, Bool.and_eq_true, decide_eq_true_eq] at hm ⊢
    exact ⟨⟨⟨by omega, hm.1.1.2⟩, hm.1.2⟩, hm.2⟩

theorem wfFrom_writeByte {m : Memory} {lo a : Nat} (v : Byte) (hm : m.wfFrom lo = true) (hlo : lo ≤ a)
    (ha : a < guestSpace) : (m.writeByte a v).wfFrom lo = true := by
  induction m generalizing lo with
  | nil =>
    unfold Memory.writeByte
    split <;> simp_all [Memory.wfFrom]
  | cons c rest ih =>
    obtain ⟨k, w⟩ := c
    have hm' := hm
    simp only [Memory.wfFrom, Bool.and_eq_true, decide_eq_true_eq] at hm
    unfold Memory.writeByte
    split
    · split
      · exact hm'
      · simp only [Memory.wfFrom, Bool.and_eq_true, decide_eq_true_eq]
        exact ⟨⟨⟨hlo, ha⟩, by assumption⟩, ⟨⟨by omega, hm.1.1.2⟩, hm.1.2⟩, hm.2⟩
    · split
      · split
        · exact wfFrom_mono hm.2 (by omega)
        · rename_i h1 h2 h3
          simp only [Memory.wfFrom, Bool.and_eq_true, decide_eq_true_eq]
          exact ⟨⟨⟨hlo, ha⟩, h3⟩, by rw [h2]; exact hm.2⟩
      · simp only [Memory.wfFrom, Bool.and_eq_true, decide_eq_true_eq]
        exact ⟨hm.1, ih hm.2 (by omega)⟩

/-- Writing one byte keeps the canonical form. -/
theorem wf_writeByte {m : Memory} {a : Nat} (v : Byte) (hm : m.wf = true) (ha : a < guestSpace) :
    (m.writeByte a v).wf = true := wfFrom_writeByte v hm (Nat.zero_le _) ha

@[simp] theorem readRange_length (m : Memory) (a n : Nat) : (m.readRange a n).length = n := by
  induction n generalizing a with
  | zero => rfl
  | succ n ih => simp [Memory.readRange, ih]

/-- Byte `k` of a range read is the byte at that address (R44). -/
theorem readRange_getD (m : Memory) (a n k : Nat) (h : k < n) : (m.readRange a n).getD k 0 = m.readByte (a + k) := by
  induction n generalizing a k with
  | zero => omega
  | succ n ih =>
    cases k with
    | zero => simp [Memory.readRange]
    | succ k =>
      have := ih (a + 1) k (by omega)
      simpa [Memory.readRange, Nat.add_assoc, Nat.add_comm 1 k] using this

/-- Storing a range leaves every address outside it alone (R44). -/
theorem readByte_writeRange_other (m : Memory) (a b : Nat) (bs : List Byte) (h : ¬ (a ≤ b ∧ b < a + bs.length)) :
    (m.writeRange a bs).readByte b = m.readByte b := by
  induction bs generalizing m a with
  | nil => rfl
  | cons v bs ih =>
    simp only [List.length_cons] at h
    simp only [Memory.writeRange]
    rw [ih _ _ (by omega), readByte_writeByte_other _ _ (by omega)]

/-- Storing a range that ends within the address space keeps the canonical form. -/
theorem wf_writeRange {m : Memory} {a : Nat} (bs : List Byte) (hm : m.wf = true) (h : a + bs.length ≤ guestSpace) :
    (m.writeRange a bs).wf = true := by
  induction bs generalizing m a with
  | nil => exact hm
  | cons v bs ih =>
    simp only [List.length_cons] at h
    simp only [Memory.writeRange]
    exact ih (wf_writeByte v hm (by omega)) (by omega)

/-- A range stored reads back as what was stored (R44). -/
theorem readByte_writeRange_inside {m : Memory} {a k : Nat} (bs : List Byte) (hm : m.wf = true)
    (h : a + bs.length ≤ guestSpace) (hk : k < bs.length) :
    (m.writeRange a bs).readByte (a + k) = bs.getD k 0 := by
  induction bs generalizing m a k with
  | nil => simp at hk
  | cons v bs ih =>
    simp only [List.length_cons] at h hk
    simp only [Memory.writeRange]
    cases k with
    | zero =>
      rw [readByte_writeRange_other _ _ _ _ (by omega)]
      simpa using readByte_writeByte_same v hm
    | succ k =>
      have := ih (m := m.writeByte a v) (a := a + 1) (k := k) (wf_writeByte v hm (by omega)) (by omega) (by omega)
      simpa [Nat.add_assoc, Nat.add_comm 1 k] using this

/-- The guest's stores keep the canonical form. -/
theorem wf_guestStore {m : Memory} (addr : Word) (bs : List Byte) (hm : m.wf = true) :
    (guestStore m addr bs).wf = true := by
  induction bs generalizing m addr with
  | nil => exact hm
  | cons v bs ih => exact ih _ (wf_writeByte v hm addr.isLt)

end Sys2Proof.Machine
end

