-- ==== Sys2Proof/Laws/State.lean ====
section
/-! SUPPORT. One lemma per field per update of State. -/

namespace Sys2Proof.Machine

variable (s : State)

@[simp] theorem emit_cfg (e : Effect) : (s.emit e).cfg = s.cfg := rfl
@[simp] theorem emit_ctrl (e : Effect) : (s.emit e).ctrl = s.ctrl := rfl
@[simp] theorem emit_status (e : Effect) : (s.emit e).status = s.status := rfl
@[simp] theorem emit_macHi (e : Effect) : (s.emit e).macHi = s.macHi := rfl
@[simp] theorem emit_macLo (e : Effect) : (s.emit e).macLo = s.macLo := rfl
@[simp] theorem emit_mdio (e : Effect) : (s.emit e).mdio = s.mdio := rfl
@[simp] theorem emit_txdesc (e : Effect) : (s.emit e).txdesc = s.txdesc := rfl
@[simp] theorem emit_rxdesc (e : Effect) : (s.emit e).rxdesc = s.rxdesc := rfl
@[simp] theorem emit_irq (e : Effect) : (s.emit e).irq = s.irq := rfl
@[simp] theorem emit_mem (e : Effect) : (s.emit e).mem = s.mem := rfl
@[simp] theorem emit_trace (e : Effect) : (s.emit e).trace = s.trace ++ [e] := rfl
@[simp] theorem emit_inputs (e : Effect) : (s.emit e).inputs = s.inputs := rfl

@[simp] theorem sendFrame_cfg (f : Frame) : (sendFrame s f).cfg = s.cfg := rfl
@[simp] theorem sendFrame_ctrl (f : Frame) : (sendFrame s f).ctrl = s.ctrl := rfl
@[simp] theorem sendFrame_status (f : Frame) : (sendFrame s f).status = s.status := rfl
@[simp] theorem sendFrame_macHi (f : Frame) : (sendFrame s f).macHi = s.macHi := rfl
@[simp] theorem sendFrame_macLo (f : Frame) : (sendFrame s f).macLo = s.macLo := rfl
@[simp] theorem sendFrame_mdio (f : Frame) : (sendFrame s f).mdio = s.mdio := rfl
@[simp] theorem sendFrame_txdesc (f : Frame) : (sendFrame s f).txdesc = s.txdesc := rfl
@[simp] theorem sendFrame_rxdesc (f : Frame) : (sendFrame s f).rxdesc = s.rxdesc := rfl
@[simp] theorem sendFrame_irq (f : Frame) : (sendFrame s f).irq = s.irq := rfl
@[simp] theorem sendFrame_mem (f : Frame) : (sendFrame s f).mem = s.mem := rfl
@[simp] theorem sendFrame_trace (f : Frame) : (sendFrame s f).trace = s.trace ++ [Effect.send f] := rfl
@[simp] theorem sendFrame_inputs (f : Frame) : (sendFrame s f).inputs = s.inputs := rfl

@[simp] theorem irqAssert_cfg : (irqAssert s).cfg = s.cfg := rfl
@[simp] theorem irqAssert_ctrl : (irqAssert s).ctrl = s.ctrl := rfl
@[simp] theorem irqAssert_status : (irqAssert s).status = s.status := rfl
@[simp] theorem irqAssert_macHi : (irqAssert s).macHi = s.macHi := rfl
@[simp] theorem irqAssert_macLo : (irqAssert s).macLo = s.macLo := rfl
@[simp] theorem irqAssert_mdio : (irqAssert s).mdio = s.mdio := rfl
@[simp] theorem irqAssert_txdesc : (irqAssert s).txdesc = s.txdesc := rfl
@[simp] theorem irqAssert_rxdesc : (irqAssert s).rxdesc = s.rxdesc := rfl
@[simp] theorem irqAssert_irq : (irqAssert s).irq = true := rfl
@[simp] theorem irqAssert_mem : (irqAssert s).mem = s.mem := rfl
@[simp] theorem irqAssert_trace : (irqAssert s).trace = s.trace ++ [Effect.irqAssert s.cfg.irqLine] := rfl
@[simp] theorem irqAssert_inputs : (irqAssert s).inputs = s.inputs := rfl

@[simp] theorem acknowledge_cfg (v : Word) : (acknowledge s v).cfg = s.cfg := rfl
@[simp] theorem acknowledge_ctrl (v : Word) : (acknowledge s v).ctrl = s.ctrl := rfl
@[simp] theorem acknowledge_status (v : Word) : (acknowledge s v).status = clearStatus s.status v := rfl
@[simp] theorem acknowledge_macHi (v : Word) : (acknowledge s v).macHi = s.macHi := rfl
@[simp] theorem acknowledge_macLo (v : Word) : (acknowledge s v).macLo = s.macLo := rfl
@[simp] theorem acknowledge_mdio (v : Word) : (acknowledge s v).mdio = s.mdio := rfl
@[simp] theorem acknowledge_txdesc (v : Word) : (acknowledge s v).txdesc = s.txdesc := rfl
@[simp] theorem acknowledge_rxdesc (v : Word) : (acknowledge s v).rxdesc = s.rxdesc := rfl
@[simp] theorem acknowledge_irq (v : Word) : (acknowledge s v).irq = s.irq := rfl
@[simp] theorem acknowledge_mem (v : Word) : (acknowledge s v).mem = s.mem := rfl
@[simp] theorem acknowledge_trace (v : Word) : (acknowledge s v).trace = s.trace := rfl
@[simp] theorem acknowledge_inputs (v : Word) : (acknowledge s v).inputs = s.inputs := rfl

@[simp] theorem lowerLine_cfg : (lowerLine s).cfg = s.cfg := rfl
@[simp] theorem lowerLine_ctrl : (lowerLine s).ctrl = s.ctrl := rfl
@[simp] theorem lowerLine_status : (lowerLine s).status = s.status := rfl
@[simp] theorem lowerLine_macHi : (lowerLine s).macHi = s.macHi := rfl
@[simp] theorem lowerLine_macLo : (lowerLine s).macLo = s.macLo := rfl
@[simp] theorem lowerLine_mdio : (lowerLine s).mdio = s.mdio := rfl
@[simp] theorem lowerLine_txdesc : (lowerLine s).txdesc = s.txdesc := rfl
@[simp] theorem lowerLine_rxdesc : (lowerLine s).rxdesc = s.rxdesc := rfl
@[simp] theorem lowerLine_irq : (lowerLine s).irq = false := rfl
@[simp] theorem lowerLine_mem : (lowerLine s).mem = s.mem := rfl
@[simp] theorem lowerLine_trace : (lowerLine s).trace = s.trace := rfl
@[simp] theorem lowerLine_inputs : (lowerLine s).inputs = s.inputs := rfl

@[simp] theorem tookInput_cfg : s.tookInput.cfg = s.cfg := rfl
@[simp] theorem tookInput_ctrl : s.tookInput.ctrl = s.ctrl := rfl
@[simp] theorem tookInput_status : s.tookInput.status = s.status := rfl
@[simp] theorem tookInput_macHi : s.tookInput.macHi = s.macHi := rfl
@[simp] theorem tookInput_macLo : s.tookInput.macLo = s.macLo := rfl
@[simp] theorem tookInput_mdio : s.tookInput.mdio = s.mdio := rfl
@[simp] theorem tookInput_txdesc : s.tookInput.txdesc = s.txdesc := rfl
@[simp] theorem tookInput_rxdesc : s.tookInput.rxdesc = s.rxdesc := rfl
@[simp] theorem tookInput_irq : s.tookInput.irq = s.irq := rfl
@[simp] theorem tookInput_mem : s.tookInput.mem = s.mem := rfl
@[simp] theorem tookInput_trace : s.tookInput.trace = s.trace := rfl
@[simp] theorem tookInput_inputs : s.tookInput.inputs = s.inputs.tail := rfl

@[simp] theorem withInput_cfg (e : Event) : (s.withInput e).cfg = s.cfg := rfl
@[simp] theorem withInput_ctrl (e : Event) : (s.withInput e).ctrl = s.ctrl := rfl
@[simp] theorem withInput_status (e : Event) : (s.withInput e).status = s.status := rfl
@[simp] theorem withInput_macHi (e : Event) : (s.withInput e).macHi = s.macHi := rfl
@[simp] theorem withInput_macLo (e : Event) : (s.withInput e).macLo = s.macLo := rfl
@[simp] theorem withInput_mdio (e : Event) : (s.withInput e).mdio = s.mdio := rfl
@[simp] theorem withInput_txdesc (e : Event) : (s.withInput e).txdesc = s.txdesc := rfl
@[simp] theorem withInput_rxdesc (e : Event) : (s.withInput e).rxdesc = s.rxdesc := rfl
@[simp] theorem withInput_irq (e : Event) : (s.withInput e).irq = s.irq := rfl
@[simp] theorem withInput_mem (e : Event) : (s.withInput e).mem = s.mem := rfl
@[simp] theorem withInput_trace (e : Event) : (s.withInput e).trace = s.trace := rfl
@[simp] theorem withInput_inputs (e : Event) : (s.withInput e).inputs = e :: s.inputs := rfl

@[simp] theorem withWord0_cfg (p w : Word) : (s.withWord0 p w).cfg = s.cfg := rfl
@[simp] theorem withWord0_ctrl (p w : Word) : (s.withWord0 p w).ctrl = s.ctrl := rfl
@[simp] theorem withWord0_status (p w : Word) : (s.withWord0 p w).status = s.status := rfl
@[simp] theorem withWord0_macHi (p w : Word) : (s.withWord0 p w).macHi = s.macHi := rfl
@[simp] theorem withWord0_macLo (p w : Word) : (s.withWord0 p w).macLo = s.macLo := rfl
@[simp] theorem withWord0_mdio (p w : Word) : (s.withWord0 p w).mdio = s.mdio := rfl
@[simp] theorem withWord0_txdesc (p w : Word) : (s.withWord0 p w).txdesc = s.txdesc := rfl
@[simp] theorem withWord0_rxdesc (p w : Word) : (s.withWord0 p w).rxdesc = s.rxdesc := rfl
@[simp] theorem withWord0_irq (p w : Word) : (s.withWord0 p w).irq = s.irq := rfl
@[simp] theorem withWord0_mem (p w : Word) : (s.withWord0 p w).mem = guestStore s.mem p (be32bytes w) := rfl
@[simp] theorem withWord0_trace (p w : Word) : (s.withWord0 p w).trace = s.trace := rfl
@[simp] theorem withWord0_inputs (p w : Word) : (s.withWord0 p w).inputs = s.inputs := rfl

/-- Everything `signalCompletion` does, in one equation. -/
theorem signalCompletion_eq (src : Source) :
    signalCompletion s src =
      { s with
        status := setFlag s.status src
        irq := s.irq || interruptEnabled s.ctrl src
        trace := s.trace ++ if interruptEnabled s.ctrl src then [Effect.irqAssert s.cfg.irqLine] else [] } := by
  simp only [signalCompletion, irqAssert, State.emit]
  split <;> simp_all

@[simp] theorem signalCompletion_cfg (src : Source) : (signalCompletion s src).cfg = s.cfg := by
  rw [signalCompletion_eq]
@[simp] theorem signalCompletion_ctrl (src : Source) : (signalCompletion s src).ctrl = s.ctrl := by
  rw [signalCompletion_eq]
@[simp] theorem signalCompletion_status (src : Source) : (signalCompletion s src).status = setFlag s.status src := by
  rw [signalCompletion_eq]
@[simp] theorem signalCompletion_macHi (src : Source) : (signalCompletion s src).macHi = s.macHi := by
  rw [signalCompletion_eq]
@[simp] theorem signalCompletion_macLo (src : Source) : (signalCompletion s src).macLo = s.macLo := by
  rw [signalCompletion_eq]
@[simp] theorem signalCompletion_mdio (src : Source) : (signalCompletion s src).mdio = s.mdio := by
  rw [signalCompletion_eq]
@[simp] theorem signalCompletion_txdesc (src : Source) : (signalCompletion s src).txdesc = s.txdesc := by
  rw [signalCompletion_eq]
@[simp] theorem signalCompletion_rxdesc (src : Source) : (signalCompletion s src).rxdesc = s.rxdesc := by
  rw [signalCompletion_eq]
@[simp] theorem signalCompletion_irq (src : Source) : (signalCompletion s src).irq = (s.irq || interruptEnabled s.ctrl src) := by
  rw [signalCompletion_eq]
@[simp] theorem signalCompletion_mem (src : Source) : (signalCompletion s src).mem = s.mem := by
  rw [signalCompletion_eq]
@[simp] theorem signalCompletion_trace (src : Source) : (signalCompletion s src).trace = s.trace ++ if interruptEnabled s.ctrl src then [Effect.irqAssert s.cfg.irqLine] else [] := by
  rw [signalCompletion_eq]
@[simp] theorem signalCompletion_inputs (src : Source) : (signalCompletion s src).inputs = s.inputs := by
  rw [signalCompletion_eq]

end Sys2Proof.Machine
end

