-- ==== Sys2Proof/Laws/Ops.lean ====
section
/-! SUPPORT. For each shared operation, one lemma that says everything it can do. -/

namespace Sys2Proof.Machine

/-- Everything `MemRead` can do. -/
theorem dmaRead_cases (s : State) (addr : Word) (n : Nat) :
    (admits s.cfg addr n = true ∧ dmaRead s addr n = .ok (s.mem.readRange addr.toNat n, s.emit (.memRead addr n))) ∨
    (admits s.cfg addr n = false ∧ dmaRead s addr n = .error .dmaError) := by
  unfold dmaRead
  cases admits s.cfg addr n <;> simp

/-- Everything `MemWrite` can do. -/
theorem dmaWrite_cases (s : State) (addr : Word) (bytes : List Byte) :
    (admits s.cfg addr bytes.length = true ∧
      dmaWrite s addr bytes =
        .ok ({ s with mem := s.mem.writeRange addr.toNat bytes }.emit (.memWrite addr bytes))) ∨
    (admits s.cfg addr bytes.length = false ∧ dmaWrite s addr bytes = .error .dmaError) := by
  unfold dmaWrite
  cases admits s.cfg addr bytes.length <;> simp

/-- Everything the descriptor fetch can do. -/
theorem fetchDescriptor_cases (s : State) (p : Word) :
    (admits s.cfg p descSize = true ∧
      fetchDescriptor s p = .ok (descriptorAt s.mem p, s.emit (.memRead p descSize))) ∨
    (admits s.cfg p descSize = false ∧ fetchDescriptor s p = .error .dmaError) := by
  unfold fetchDescriptor descriptorAt
  rcases dmaRead_cases s p descSize with ⟨h, e⟩ | ⟨h, e⟩ <;> simp [h, e]

/-- Everything `GuestMem.admits` looks at (R46, D2). -/
theorem admits_iff {c : Config} {addr : Word} {n : Nat} :
    admits c addr n = true ↔ n = 0 ∨ (addr.toNat + n ≤ guestSpace ∧
      rangesMeet addr.toNat n c.regBase.toNat c.regWindowSize = false ∧ platformAdmits c addr n = true) := by
  simp [admits, and_assoc]

/-- The ranges `[a, a + n)` and `[b, b + m)` meet exactly when an address lies in both. -/
theorem rangesMeet_iff {a n b m : Nat} :
    rangesMeet a n b m = true ↔ ∃ x, a ≤ x ∧ x < a + n ∧ b ≤ x ∧ x < b + m := by
  simp only [rangesMeet, Bool.and_eq_true, decide_eq_true_eq]
  constructor
  · intro h
    exact ⟨max a b, by omega⟩
  · rintro ⟨x, h⟩
    omega

/-- An admitted range ends within the guest address space (R46). -/
theorem admits_fits {c : Config} {addr : Word} {n : Nat} (h : admits c addr n = true) : addr.toNat + n ≤ guestSpace := by
  have := addr.isLt
  rcases admits_iff.1 h with rfl | h
  · exact Nat.le_of_lt this
  · exact h.1

@[simp] theorem be32bytes_length (v : Word) : (be32bytes v).length = 4 := rfl

/-- Everything the second half of a ctrl store can do (R81). -/
theorem transmitAfterStore_cases (s : State) :
    (txEnabled s.ctrl = false ∧ transmitAfterStore s = execTxOff s) ∨
    (txEnabled s.ctrl = true ∧ descEnable (descriptorAt s.mem s.txdesc).word0 = false ∧
      transmitAfterStore s = execTxIdle s) ∨
    (txEnabled s.ctrl = true ∧ descEnable (descriptorAt s.mem s.txdesc).word0 = true ∧
      transmitAfterStore s = execTxSend s) := by
  unfold transmitAfterStore
  cases txEnabled s.ctrl <;> cases descEnable (descriptorAt s.mem s.txdesc).word0 <;> simp

/-- Everything `TX.IDLE` can do (R132). -/
theorem execTxIdle_cases (s : State) :
    (admits s.cfg s.txdesc descSize = true ∧ execTxIdle s = .next (s.emit (.memRead s.txdesc descSize))) ∨
    (admits s.cfg s.txdesc descSize = false ∧ execTxIdle s = .fault .dmaError) := by
  unfold execTxIdle
  rcases fetchDescriptor_cases s s.txdesc with ⟨h, e⟩ | ⟨h, e⟩ <;> simp [h, e]

/-- What `TX.SEND` leaves when it completes on the descriptor `d` (R131), in terms of the state it started in. -/
def txSendState (s : State) (d : Descriptor) : State :=
  txComplete
    ({ sendFrame ((s.emit (.memRead s.txdesc descSize)).emit (.memRead d.word1 (txLength d.word0)))
        (s.mem.readRange d.word1.toNat (txLength d.word0)) with
      mem := s.mem.writeRange s.txdesc.toNat (be32bytes 0) }.emit (.memWrite s.txdesc (be32bytes 0)))
    s.txdesc d.word0

/-- Everything `TX.SEND` can do (R131). -/
theorem execTxSend_cases (s : State) :
    (descEnable (descriptorAt s.mem s.txdesc).word0 = false ∧ admits s.cfg s.txdesc descSize = true ∧
      execTxSend s = .next (s.emit (.memRead s.txdesc descSize))) ∨
    (descEnable (descriptorAt s.mem s.txdesc).word0 = true ∧ admits s.cfg s.txdesc descSize = true ∧
      admits s.cfg (descriptorAt s.mem s.txdesc).word1 (txLength (descriptorAt s.mem s.txdesc).word0) = true ∧
      admits s.cfg s.txdesc 4 = true ∧
      execTxSend s = .next (txSendState s (descriptorAt s.mem s.txdesc))) ∨
    (execTxSend s = .fault .dmaError ∧
      (admits s.cfg s.txdesc descSize = false ∨
        (descEnable (descriptorAt s.mem s.txdesc).word0 = true ∧
          (admits s.cfg (descriptorAt s.mem s.txdesc).word1 (txLength (descriptorAt s.mem s.txdesc).word0) = false ∨
            admits s.cfg s.txdesc 4 = false)))) := by
  unfold execTxSend
  generalize hd : descriptorAt s.mem s.txdesc = d
  rcases fetchDescriptor_cases s s.txdesc with ⟨h, e⟩ | ⟨h, e⟩
  · rw [hd] at e
    cases hen : descEnable d.word0
    · exact .inl ⟨rfl, h, by simp [e, hen]⟩
    · rcases dmaRead_cases (s.emit (.memRead s.txdesc descSize)) d.word1 (txLength d.word0) with ⟨h1, e1⟩ | ⟨h1, e1⟩
      · rcases dmaWrite_cases
            (sendFrame ((s.emit (.memRead s.txdesc descSize)).emit (.memRead d.word1 (txLength d.word0)))
              (s.mem.readRange d.word1.toNat (txLength d.word0))) s.txdesc (be32bytes 0) with ⟨h2, e2⟩ | ⟨h2, e2⟩
        · exact .inr (.inl ⟨rfl, h, h1, h2, by simp only [e, hen, e1, if_true, emit_mem]; rw [e2]; rfl⟩)
        · exact .inr (.inr ⟨by simp only [e, hen, e1, if_true, emit_mem]; rw [e2], .inr ⟨rfl, .inr h2⟩⟩)
      · exact .inr (.inr ⟨by simp only [e, hen, e1, if_true], .inr ⟨rfl, .inl h1⟩⟩)
  · exact .inr (.inr ⟨by simp only [e], .inl h⟩)

/-- What `RX.DELIVER` leaves when it completes on the descriptor `d`, before it returns (R151). -/
def rxDeliverState (s : State) (d : Descriptor) (frame : Frame) : State :=
  signalCompletion
    { ({ ({ s.emit (.memRead s.rxdesc descSize) with
            mem := s.mem.writeRange d.word1.toNat frame }.emit (.memWrite d.word1 frame)) with
          mem := (s.mem.writeRange d.word1.toNat frame).writeRange s.rxdesc.toNat
            (be32bytes (rxLengthWord frame.length)) }.emit
        (.memWrite s.rxdesc (be32bytes (rxLengthWord frame.length)))) with
      rxdesc := advance s.rxdesc (descWrap d.word0) } .receive

/-- Everything `RX.DELIVER` can do (R151). -/
theorem execRxDeliver_cases (frame : Frame) (s : State) :
    (rxEnabled s.ctrl = false ∧ execRxDeliver frame s = .next (s.emit (.receiveReturn 0))) ∨
    (rxEnabled s.ctrl = true ∧ descEnable (descriptorAt s.mem s.rxdesc).word0 = false ∧
      admits s.cfg s.rxdesc descSize = true ∧
      execRxDeliver frame s = .next ((s.emit (.memRead s.rxdesc descSize)).emit (.receiveReturn 0))) ∨
    (rxEnabled s.ctrl = true ∧ descEnable (descriptorAt s.mem s.rxdesc).word0 = true ∧
      admits s.cfg s.rxdesc descSize = true ∧ admits s.cfg (descriptorAt s.mem s.rxdesc).word1 frame.length = true ∧
      admits s.cfg s.rxdesc 4 = true ∧
      execRxDeliver frame s =
        .next ((rxDeliverState s (descriptorAt s.mem s.rxdesc) frame).emit (.receiveReturn frame.length))) ∨
    (rxEnabled s.ctrl = true ∧ execRxDeliver frame s = .fault .dmaError ∧
      (admits s.cfg s.rxdesc descSize = false ∨
        (descEnable (descriptorAt s.mem s.rxdesc).word0 = true ∧
          (admits s.cfg (descriptorAt s.mem s.rxdesc).word1 frame.length = false ∨
            admits s.cfg s.rxdesc 4 = false)))) := by
  unfold execRxDeliver
  generalize hd : descriptorAt s.mem s.rxdesc = d
  cases hrx : rxEnabled s.ctrl
  · exact .inl ⟨rfl, rfl⟩
  · rcases fetchDescriptor_cases s s.rxdesc with ⟨h, e⟩ | ⟨h, e⟩
    · rw [hd] at e
      cases hen : descEnable d.word0
      · exact .inr (.inl ⟨rfl, rfl, h, by simp only [e, hen]; rfl⟩)
      · rcases dmaWrite_cases (s.emit (.memRead s.rxdesc descSize)) d.word1 frame with ⟨h1, e1⟩ | ⟨h1, e1⟩
        · rcases dmaWrite_cases
              ({ s.emit (.memRead s.rxdesc descSize) with
                  mem := s.mem.writeRange d.word1.toNat frame }.emit (.memWrite d.word1 frame))
              s.rxdesc (be32bytes (rxLengthWord frame.length)) with ⟨h2, e2⟩ | ⟨h2, e2⟩
          · exact .inr (.inr (.inl ⟨rfl, rfl, h, h1, h2, by
              simp only [e, hen, e1, if_true, emit_mem]; rw [e2]; rfl⟩))
          · exact .inr (.inr (.inr ⟨rfl, by simp only [e, hen, e1, if_true, emit_mem]; rw [e2], .inr ⟨rfl, .inr h2⟩⟩))
        · exact .inr (.inr (.inr ⟨rfl, by simp only [e, hen, e1, if_true], .inr ⟨rfl, .inl h1⟩⟩))
    · exact .inr (.inr (.inr ⟨rfl, by simp only [e, if_true], .inl h⟩))

/-- Everything `RX.NOBUF` can do (R153). -/
theorem execRxNoBuf_cases (frame : Frame) (s : State) :
    (rxEnabled s.ctrl = false ∧ execRxNoBuf frame s = .next (s.emit (.receiveReturn 0))) ∨
    (rxEnabled s.ctrl = true ∧ admits s.cfg s.rxdesc descSize = true ∧
      execRxNoBuf frame s = .next ((s.emit (.memRead s.rxdesc descSize)).emit (.receiveReturn 0))) ∨
    (rxEnabled s.ctrl = true ∧ admits s.cfg s.rxdesc descSize = false ∧ execRxNoBuf frame s = .fault .dmaError) := by
  unfold execRxNoBuf
  cases hrx : rxEnabled s.ctrl
  · exact .inl ⟨rfl, rfl⟩
  · rcases fetchDescriptor_cases s s.rxdesc with ⟨h, e⟩ | ⟨h, e⟩
    · exact .inr (.inl ⟨rfl, h, by simp only [e, if_true]; rfl⟩)
    · exact .inr (.inr ⟨rfl, h, by simp only [e, if_true]⟩)

/-- Everything the second half of an mdio store can do (R170). -/
theorem mdioRequest_eq (value : Word) (s : State) :
    mdioRequest value s = .next { s with mdio := mdioResult s.cfg value } := by
  unfold mdioRequest mdioResult execMdioNoPhy execMdioRead execMdioWrite
  repeat' split
  all_goals rfl

/-- Everything `present` can do: two kinds of event are moves of the environment, the others present a record the decoder
accepts (R84). -/
theorem present_cases (e : Event) (s : State) :
    (∃ addr bytes, e = .guestWrite addr bytes ∧
      present e s = .environment { s with mem := guestStore s.mem addr bytes }) ∨
    (e = .lower ∧ present e s = .environment (lowerLine s)) ∨
    (∃ r i, present e s = .operation r ∧ decodeRecord r = .ok i) := by
  cases e with
  | busLoad offset size => exact .inr (.inr ⟨_, _, rfl, by simp [decodeRecord]; rfl⟩)
  | busStore offset size value => exact .inr (.inr ⟨_, _, rfl, by simp [decodeRecord]; rfl⟩)
  | canReceive => exact .inr (.inr ⟨_, _, rfl, by simp [decodeRecord]; rfl⟩)
  | receive frame =>
    refine .inr (.inr ?_)
    simp only [present, receiveRecord]
    cases h : rxEnabled s.ctrl
    · exact ⟨_, .rxOff frame, rfl, by simp [decodeRecord]; simpa [rxEnabled] using h⟩
    · exact ⟨_, _, rfl, by simp [decodeRecord]; rfl⟩
  | reset => exact .inr (.inr ⟨_, _, rfl, by simp [decodeRecord]; rfl⟩)
  | guestWrite addr bytes => exact .inl ⟨addr, bytes, rfl, rfl⟩
  | lower => exact .inr (.inl ⟨rfl, rfl⟩)

end Sys2Proof.Machine
end

