-- ==== Sys2Proof/Laws/PerInstr.lean ====
section
/-! SUPPORT. Per operation: the record the encoder makes of a well-formed operation is decoded to that operation. (Of the
record, before its bytes.) -/

namespace Sys2Proof.Laws.RecordRoundTrip

open Sys2Proof Sys2Proof.Machine

/-- What the family says of one operation. -/
def Statement (i : Instr) : Prop := i.wf = true → decodeRecord (encodeRecord i) = .ok i

/-- An unmapped offset is none of the seven (R72). -/
theorem unmapped_ne {offset : Word} (h : offsetUnmapped offset = true) :
    offset ≠ offCtrl ∧ offset ≠ offStatus ∧ offset ≠ offMacHi ∧ offset ≠ offMacLo ∧ offset ≠ offMdio ∧
      offset ≠ offTxdesc ∧ offset ≠ offRxdesc := by
  simpa [offsetUnmapped, and_assoc] using h

/-- The table's masks and matches agree with the fields of a request (R76, R82). -/
theorem mdio_match (v : Word) :
    (v &&& 0x0000f802 = 0x00000800 ↔ mdioPhyAddress v = phyAddr ∧ mdioReadFlag v = false) ∧
    (v &&& 0x0000f802 = 0x00000802 ↔ mdioPhyAddress v = phyAddr ∧ mdioReadFlag v = true) := by
  have key : ∀ (pa : BitVec 5) (rd : Bool) (_ : mdioPhyAddress v = pa) (_ : mdioReadFlag v = rd),
      v &&& (0x0000f802 : Word) = (pa.setWidth 32 <<< 11 : Word) ||| (if rd then (2 : Word) else 0) := by
    intro pa rd hpa hrd
    subst hpa hrd
    unfold mdioPhyAddress mdioReadFlag
    ext k hk
    have : k < 32 := hk
    interval_cases k <;> cases h : v.getLsbD 1 <;> simp_all
  constructor
  · cases hrd : mdioReadFlag v <;> rw [key _ _ rfl hrd] <;> generalize mdioPhyAddress v = pa <;>
      revert pa <;> decide
  · cases hrd : mdioReadFlag v <;> rw [key _ _ rfl hrd] <;> generalize mdioPhyAddress v = pa <;>
      revert pa <;> decide

theorem loadCtrl (size : Byte) : Statement (.loadCtrl size) := fun _ => rfl
theorem loadStatus (size : Byte) : Statement (.loadStatus size) := fun _ => rfl
theorem loadMacHi (size : Byte) : Statement (.loadMacHi size) := fun _ => rfl
theorem loadMacLo (size : Byte) : Statement (.loadMacLo size) := fun _ => rfl
theorem loadMdio (size : Byte) : Statement (.loadMdio size) := fun _ => rfl
theorem loadTxdesc (size : Byte) : Statement (.loadTxdesc size) := fun _ => rfl
theorem loadRxdesc (size : Byte) : Statement (.loadRxdesc size) := fun _ => rfl
theorem loadUnmapped (offset : Word) (size : Byte) : Statement (.loadUnmapped offset size) := by
  intro h
  have := unmapped_ne h
  simp_all [decodeRecord, encodeRecord, decodeBusLoad]
theorem storeCtrl (size : Byte) (value : Word) : Statement (.storeCtrl size value) := fun _ => rfl
theorem storeStatus (size : Byte) (value : Word) : Statement (.storeStatus size value) := fun _ => rfl
theorem storeMacHi (size : Byte) (value : Word) : Statement (.storeMacHi size value) := fun _ => rfl
theorem storeMacLo (size : Byte) (value : Word) : Statement (.storeMacLo size value) := fun _ => rfl
theorem storeMdio (size : Byte) (value : Word) : Statement (.storeMdio size value) := fun _ => rfl
theorem storeTxdesc (size : Byte) (value : Word) : Statement (.storeTxdesc size value) := fun _ => rfl
theorem storeRxdesc (size : Byte) (value : Word) : Statement (.storeRxdesc size value) := fun _ => rfl
theorem storeUnmapped (offset : Word) (size : Byte) (value : Word) : Statement (.storeUnmapped offset size value) := by
  intro h
  have := unmapped_ne h
  simp_all [decodeRecord, encodeRecord, decodeBusStore]
theorem txOff : Statement .txOff := fun _ => rfl
theorem txIdle : Statement .txIdle := fun _ => rfl
theorem txSend : Statement .txSend := fun _ => rfl
theorem rxCanReceive : Statement .rxCanReceive := fun _ => rfl
theorem rxOff (frame : Frame) : Statement (.rxOff frame) := fun _ => by
  simp [decodeRecord, encodeRecord]
theorem rxNoBuf (frame : Frame) : Statement (.rxNoBuf frame) := fun _ => by
  simp [decodeRecord, encodeRecord, descEnable]
theorem rxDeliver (frame : Frame) : Statement (.rxDeliver frame) := fun _ => by
  simp [decodeRecord, encodeRecord, descEnable, bitEn]
theorem mdioNoPhy (value : Word) : Statement (.mdioNoPhy value) := by
  intro h
  have := mdio_match value
  simp_all [Instr.wf, decodeRecord, encodeRecord, decodeMdio]
theorem mdioWrite (value : Word) : Statement (.mdioWrite value) := by
  intro h
  have := mdio_match value
  simp_all [Instr.wf, decodeRecord, encodeRecord, decodeMdio]
theorem mdioRead (value : Word) : Statement (.mdioRead value) := by
  intro h
  have := mdio_match value
  simp_all [Instr.wf, decodeRecord, encodeRecord, decodeMdio]
theorem reset : Statement .reset := fun _ => rfl

end Sys2Proof.Laws.RecordRoundTrip
end

