-- ==== Sys2Proof/Laws/Words.lean ====
section
/-! SUPPORT. Bytes and words: the byte orders of a descriptor and of a record, and the fields of an MDIO request. -/

namespace Sys2Proof.Machine

/-! ## The literals of R2 hold together -/

/-- The word type has the width of a register and of a guest address (`REG_WIDTH`, `ADDR_WIDTH`). -/
theorem word_width : Word = BitVec regWidth ∧ Word = BitVec addrWidth := ⟨rfl, rfl⟩

/-- There are `N_REGS` offsets, no two equal (R10), and an offset is unmapped exactly when it is none of them (R52). -/
theorem regOffsets_length : regOffsets.length = nRegs ∧ regOffsets.Nodup := by decide

theorem offsetUnmapped_iff (offset : Word) : offsetUnmapped offset = true ↔ offset ∉ regOffsets := by
  simp [offsetUnmapped, regOffsets, and_assoc]

/-- `RING_SLOTS` descriptors of `DESC_SIZE` bytes fill the window of `RING_BYTES`. -/
theorem ring_slots : ringSlots = 128 ∧ ringSlots * descSize = ringBytes := by decide

/-- Every transmit length fits the internal frame buffer, `TXBUF_CAP` (R135, D12): no oversize case exists. -/
theorem txLength_lt_cap (word0 : Word) : txLength word0 < txbufCap := by
  have h : (word0 &&& lenMask).toNat ≤ lenMask.toNat := by
    rw [BitVec.toNat_and]
    exact Nat.and_le_right
  exact Nat.lt_of_le_of_lt h (by decide)

/-- The PHY register bank has one entry for each register address (`PHY_NREGS`, R22). -/
theorem phy_nregs : phyNregs = 2 ^ 5 := rfl

/-- The masks made of the named constants, as R80 and R140 write them. -/
theorem masks_written_out :
    mdioKeepMask = 0xffffffc0 ∧ mdioReadMask = 0x0000ffc0 ∧ ringPageMask = 0xfffffc00 ∧ ringOffsetMask = 0x3ff ∧
      descStride = 8 := by decide

/-! ## Bytes of a word -/

/-- Taking a word apart into bytes and putting it together again. -/
theorem wordOfBytes_extract (v : Word) :
    wordOfBytes (v.extractLsb' 24 8) (v.extractLsb' 16 8) (v.extractLsb' 8 8) (v.extractLsb' 0 8) = v := by
  unfold wordOfBytes
  ext k hk
  interval_cases k <;> simp

/-- The bytes of a word put together. -/
theorem extract_wordOfBytes (b0 b1 b2 b3 : Byte) :
    (wordOfBytes b0 b1 b2 b3).extractLsb' 24 8 = b0 ∧ (wordOfBytes b0 b1 b2 b3).extractLsb' 16 8 = b1 ∧
      (wordOfBytes b0 b1 b2 b3).extractLsb' 8 8 = b2 ∧ (wordOfBytes b0 b1 b2 b3).extractLsb' 0 8 = b3 := by
  unfold wordOfBytes
  refine ⟨?_, ?_, ?_, ?_⟩ <;>
  · ext k hk
    interval_cases k <;> simp

/-- `be32` inverts `be32bytes` (R47). -/
theorem be32At_be32bytes (v : Word) (rest : List Byte) : be32At (be32bytes v ++ rest) 0 = v := by
  simpa [be32At, be32bytes] using wordOfBytes_extract v

/-- A record's numbers read back (log 10). -/
theorem leWord_leBytes (v : Word) :
    leWord (v.extractLsb' 0 8) (v.extractLsb' 8 8) (v.extractLsb' 16 8) (v.extractLsb' 24 8) = v :=
  wordOfBytes_extract v

/-- `phy_address` written as a shift and a mask (R80). -/
theorem mdioPhyAddress_eq_one (v : Word) : (v >>> 11) &&& 0x1f = 1 ↔ mdioPhyAddress v = phyAddr := by
  unfold mdioPhyAddress
  constructor
  · intro h
    ext k hk
    have hb := congrArg (fun w => w.getLsbD k) h
    interval_cases k <;> simpa using hb
  · intro h
    ext k hk
    have hb := congrArg (fun w => w.getLsbD k) h
    interval_cases k <;> first | (simp; done) | simpa using hb

/-- `read_flag` written as a shift and a mask (R80). -/
theorem mdioReadFlag_eq (v : Word) : (v >>> 1) &&& 1 = if mdioReadFlag v then (1 : Word) else 0 := by
  unfold mdioReadFlag
  ext k hk
  cases hv : v.getLsbD 1 <;> interval_cases k <;> simp_all

end Sys2Proof.Machine
end

