-- ==== Sys2Proof/Tests/Slice0.lean ====
section
/-! SUPPORT. Tests. Expected values are those of spec/95_test_vectors.md (named in the comments) or worked out by hand from
the rules; words are written out from the spec's encodings. Then one witness for the hypotheses of each statement. -/

namespace Sys2Proof.Tests

open Sys2Proof Sys2Proof.Machine

/-! ## A small platform and small states -/

/-- A platform with every parameter at a value of its own. -/
def cfg : Config where
  regBase := 0x80000000
  regWindowSize := 0x1c
  irqLine := 5
  macDefault := #v[0x02, 0x11, 0x22, 0x33, 0x44, 0x55]
  txdescPowerOn := 0x1000
  rxdescPowerOn := 0x2004
  maxRxFrame := 1514
  phyTable := Vector.ofFn fun i => BitVec.ofNat 16 (0xa000 + (i.val + 1))
  turnedAway := [(0x50000000, 8), (0x50000010, 4)]
  holes := [(0xe0000000, 0x100)]

/-- Power-on on that platform. -/
def idle : State := State.powerOn cfg

/-- `idle` with an event to come. -/
def given (e : Event) (s : State) : State := { s with inputs := e :: s.inputs }

/-- `idle` with bytes in guest memory. -/
def holding (addr : Word) (bytes : List Byte) (s : State) : State := { s with mem := guestStore s.mem addr bytes }

/-- The memory and txdesc of vector T1. -/
def ringT1 : State :=
  holding 0x40000000 [0x00, 0x00, 0x08, 0x04, 0x40, 0x00, 0x10, 0x00]
    (holding 0x40001000 [0xde, 0xad, 0xbe, 0xef] { idle with txdesc := 0x40000000 })

/-- The memory, rxdesc and ctrl of vector X4. -/
def ringX4 : State :=
  holding 0x40000400 [0x00, 0x00, 0x08, 0x00, 0x40, 0x00, 0x20, 0x00]
    { idle with rxdesc := 0x40000400, ctrl := 0x0800000a }

/-- Does the outcome go on, in a state of which `p` holds? -/
def nextIs (o : Host.Outcome State Fault Refusal) (p : State → Bool) : Bool :=
  match o with
  | .next t => p t
  | .fault _ => false
  | .refused _ => false

/-- Is the outcome `DmaError`? -/
def isDmaError (o : Host.Outcome State Fault Refusal) : Bool :=
  match o with
  | .next _ => false
  | .fault .dmaError => true
  | .refused _ => false

/-! ## Well-formedness: one ill-formed term for each check -/

theorem test_wf_refuses_load_of_a_mapped_offset : (Instr.loadUnmapped 0x14 4).wf = false := by decide
theorem test_wf_refuses_store_to_a_mapped_offset : (Instr.storeUnmapped 0x00 4 0).wf = false := by decide
theorem test_wf_refuses_noPhy_at_address_1 : (Instr.mdioNoPhy 0x00000800).wf = false := by decide
theorem test_wf_refuses_write_at_address_2 : (Instr.mdioWrite 0x00001000).wf = false := by decide
theorem test_wf_refuses_write_with_the_read_flag : (Instr.mdioWrite 0x00000802).wf = false := by decide
theorem test_wf_refuses_read_at_address_2 : (Instr.mdioRead 0x00001002).wf = false := by decide
theorem test_wf_refuses_read_without_the_flag : (Instr.mdioRead 0x00000800).wf = false := by decide
theorem test_wf_refuses_a_frame_of_2_to_the_32_bytes :
    (Instr.rxOff (List.replicate (2 ^ 32) 0)).wf = false ∧ (Instr.rxNoBuf (List.replicate (2 ^ 32) 0)).wf = false ∧
      (Instr.rxDeliver (List.replicate (2 ^ 32) 0)).wf = false := by
  simp only [Instr.wf, frameFits, List.length_replicate]
  decide
theorem test_allowed_refuses_a_frame_over_the_bound :
    Event.allowed cfg (.receive (List.replicate 1515 0)) = false ∧
      Event.allowed cfg (.receive (List.replicate 1514 0)) = true := by
  simp only [Event.allowed, List.length_replicate]
  decide
theorem test_config_wf_refuses :
    Config.wf { cfg with regWindowSize := 0x1b } = false ∧ Config.wf { cfg with txdescPowerOn := 2 } = false ∧
      Config.wf { cfg with rxdescPowerOn := 1 } = false ∧ Config.wf cfg = true := by decide

/-! ## Decoding: the bytes written out, one record per constructor -/

theorem test_decode_loads :
    decode [0x00, 0, 0, 0, 0, 4, 0, 0, 0, 0, 0, 0, 0, 0, 0, 0] = .ok (.loadCtrl 4) ∧
    decode [0x04, 0, 0, 0, 0, 4, 0, 0, 0, 0, 0, 0, 0, 0, 0, 0] = .ok (.loadStatus 4) ∧
    decode [0x08, 0, 0, 0, 0, 2, 0, 0, 0, 0, 0, 0, 0, 0, 0, 0] = .ok (.loadMacHi 2) ∧
    decode [0x0c, 0, 0, 0, 0, 4, 0, 0, 0, 0, 0, 0, 0, 0, 0, 0] = .ok (.loadMacLo 4) ∧
    decode [0x10, 0, 0, 0, 0, 1, 0, 0, 0, 0, 0, 0, 0, 0, 0, 0] = .ok (.loadMdio 1) ∧
    decode [0x14, 0, 0, 0, 0, 4, 0, 0, 0, 0, 0, 0, 0, 0, 0, 0] = .ok (.loadTxdesc 4) ∧
    decode [0x18, 0, 0, 0, 0, 4, 0, 0, 0, 0, 0, 0, 0, 0, 0, 0] = .ok (.loadRxdesc 4) ∧
    decode [0x02, 0, 0, 0, 0, 4, 0, 0, 0, 0, 0, 0, 0, 0, 0, 0] = .ok (.loadUnmapped 0x02 4) := by decide

theorem test_decode_stores :
    decode [0x00, 0, 0, 0, 1, 4, 0, 0, 0x78, 0x56, 0x34, 0x12, 0, 0, 0, 0] = .ok (.storeCtrl 4 0x12345678) ∧
    decode [0x04, 0, 0, 0, 1, 4, 0, 0, 0x0c, 0, 0, 0, 0, 0, 0, 0] = .ok (.storeStatus 4 0xc) ∧
    decode [0x08, 0, 0, 0, 1, 4, 0, 0, 0x34, 0x12, 0, 0, 0, 0, 0, 0] = .ok (.storeMacHi 4 0x1234) ∧
    decode [0x0c, 0, 0, 0, 1, 4, 0, 0, 0xbc, 0x9a, 0x78, 0x56, 0, 0, 0, 0] = .ok (.storeMacLo 4 0x56789abc) ∧
    decode [0x10, 0, 0, 0, 1, 4, 0, 0, 0x02, 0x08, 0, 0, 0, 0, 0, 0] = .ok (.storeMdio 4 0x802) ∧
    decode [0x14, 0, 0, 0, 1, 4, 0, 0, 0, 0, 0, 0x40, 0, 0, 0, 0] = .ok (.storeTxdesc 4 0x40000000) ∧
    decode [0x18, 0, 0, 0, 1, 4, 0, 0, 0, 0x04, 0, 0x40, 0, 0, 0, 0] = .ok (.storeRxdesc 4 0x40000400) ∧
    decode [0x00, 0, 0, 0x01, 1, 4, 0, 0, 1, 0, 0, 0, 0, 0, 0, 0] = .ok (.storeUnmapped 0x01000000 4 1) := by decide

theorem test_decode_engines :
    decode [0xfe, 0xff, 0xff, 0xff, 3, 0, 0, 0, 0, 0, 0, 0, 0, 0, 0, 0] = .ok .txOff ∧
    decode [0xff, 0xf7, 0xff, 0xff, 4, 0, 0, 0, 0, 0, 0, 0, 0, 0, 0, 0] = .ok .txIdle ∧
    decode [0x00, 0x08, 0, 0, 4, 0, 0, 0, 0, 0, 0, 0, 0, 0, 0, 0] = .ok .txSend ∧
    decode [0, 0, 0, 0, 7, 0, 0, 0, 0, 0, 0, 0, 0, 0, 0, 0] = .ok .rxCanReceive ∧
    decode [0xfd, 0, 0, 0, 5, 0, 0, 0, 0, 0, 0, 0, 1, 0, 0, 0, 0xab] = .ok (.rxOff [0xab]) ∧
    decode [0xff, 0xf7, 0, 0, 6, 0, 0, 0, 0, 0, 0, 0, 0, 0, 0, 0] = .ok (.rxNoBuf []) ∧
    decode [0x00, 0x18, 0, 0, 6, 0, 0, 0, 0, 0, 0, 0, 2, 0, 0, 0, 1, 2] = .ok (.rxDeliver [1, 2]) ∧
    decode [0, 0, 0, 0, 8, 0, 0, 0, 0, 0, 0, 0, 0, 0, 0, 0] = .ok .reset := by decide

/-- M6, M4, M2: bits 15:11 and bit 1 of the value. -/
theorem test_decode_mdio :
    decode [0x02, 0x10, 0, 0, 2, 0, 0, 0, 0, 0, 0, 0, 0, 0, 0, 0] = .ok (.mdioNoPhy 0x1002) ∧
    decode [0x01, 0x08, 0, 0x80, 2, 0, 0, 0, 0, 0, 0, 0, 0, 0, 0, 0] = .ok (.mdioWrite 0x80000801) ∧
    decode [0x42, 0x08, 0, 0, 2, 0, 0, 0, 0, 0, 0, 0, 0, 0, 0, 0] = .ok (.mdioRead 0x842) := by decide

theorem test_decode_rejects_by_name :
    decode [0, 0, 0] = .error .truncated ∧
    decode [0, 0, 0, 0, 9, 0, 0, 0, 0, 0, 0, 0, 0, 0, 0, 0] = .error (.unknownSpace 9) ∧
    decode [0, 0, 0, 0, 0, 0, 0, 1, 0, 0, 0, 0, 0, 0, 0, 0] = .error .reservedNotZero ∧
    decode [0, 0, 0, 0, 6, 0, 0, 0, 0, 0, 0, 0, 1, 0, 0, 0] = .error .frameLength ∧
    decode [0, 0, 0, 0, 0, 0, 0, 0, 1, 0, 0, 0, 0, 0, 0, 0] = .error .strayOperand ∧
    decode [1, 0, 0, 0, 3, 0, 0, 0, 0, 0, 0, 0, 0, 0, 0, 0] = .error .noRow ∧
    decode [2, 0, 0, 0, 5, 0, 0, 0, 0, 0, 0, 0, 0, 0, 0, 0] = .error .noRow := by decide

/-- A word of the table is read as a bus load offset; with the space in bits 39:32 the other rows are reached too. -/
theorem test_decodeTableWord :
    decodeTableWord 32 0x14 = some (.loadTxdesc 0) ∧ decodeTableWord 40 0x0100000014 = some (.storeTxdesc 0 0) ∧
      decodeTableWord 40 0x0400000800 = some .txSend ∧ decodeTableWord 40 0x0200000802 = some (.mdioRead 0x802) := by decide

/-! ## The next step runs the word laid before it, as the first after reset -/

theorem test_withFetchWord_load :
    nextIs (step (State.reset.withFetchWord 32 0x00)) (fun t => t.trace == [.loadReturn 0x08000000]) = true := by decide

theorem test_withFetchWord_send :
    nextIs (step (State.reset.withFetchWord 40 0x0400000800))
      (fun t => t.status == 8 && t.txdesc == 8 && t.ctrl == 0x08000001 && t.inputs == []) = true := by decide

theorem test_withFetchWord_deliver :
    nextIs (step (State.reset.withFetchWord 40 0x0600000800))
      (fun t => t.status == 4 && t.rxdesc == 8 && t.inputs == []) = true := by decide

theorem test_withFetchWord_mdio :
    nextIs (step (State.reset.withFetchWord 40 0x0200000802)) (fun t => t.mdio == 0x11400800) = true := by decide

/-! ## The register file -/

/-- MA1, MA2: the value loaded and the byte-array view. -/
theorem test_mac_bytes :
    nextIs (exec (.storeMacHi 4 0xabcd1234) idle) (fun t => macHiValue t.macHi == 0x1234) = true ∧
      macBytes 0x1234 0x56789abc = #v[0x34, 0x12, 0xbc, 0x9a, 0x78, 0x56] ∧
      nextIs (exec (.storeMacLo 4 0x56789abc) idle) (fun t => t.macLo == 0x56789abc) = true := by decide

/-- The bytes of `MAC_DEFAULT` stand where R15 puts them. -/
theorem test_mac_default : idle.macHi = 0x1102 ∧ idle.macLo = 0x55443322 := by decide

theorem test_load_mac :
    nextIs (exec (.loadMacHi 4) idle) (fun t => t.trace == [.loadReturn 0x00001102]) = true ∧
      nextIs (exec (.loadMacLo 4) idle) (fun t => t.trace == [.loadReturn 0x55443322]) = true := by decide

theorem test_load_pointers :
    nextIs (exec (.loadTxdesc 4) idle) (fun t => t.trace == [.loadReturn 0x1000]) = true ∧
      nextIs (exec (.loadRxdesc 4) idle) (fun t => t.trace == [.loadReturn 0x2004]) = true := by decide

/-- CT2 (on a disabled descriptor), CT6, CT13. -/
theorem test_store_ctrl :
    nextIs (exec (.storeCtrl 4 0xffffffff) idle) (fun t => t.ctrl == 0x080001bf) = true ∧
      nextIs (exec (.storeCtrl 4 0xf7fffe40) idle) (fun t => t.ctrl == 0x08000000) = true ∧
      nextIs (step (given (.busStore 0 8 0x100000000) idle)) (fun t => t.ctrl == 0x08000000) = true := by decide

/-- ST1, ST5, ST6; a load of status has no side effect. -/
theorem test_store_status :
    nextIs (exec (.storeStatus 4 0x4) { idle with status := 0xc, irq := true }) (fun t => t.status == 8 && t.irq) = true ∧
      nextIs (exec (.storeStatus 4 0x3) { idle with status := 0xc }) (fun t => t.status == 0xc) = true ∧
      nextIs (exec (.storeStatus 4 0xc) idle) (fun t => t.status == 0) = true := by decide

theorem test_load_status :
    nextIs (exec (.loadStatus 1) { idle with status := 0x4 })
      (fun t => t.status == 4 && t.trace == [.loadReturn 4]) = true := by decide

/-- PT2, PT3, PT4. -/
theorem test_store_pointers :
    nextIs (exec (.storeTxdesc 4 0x40000403) idle) (fun t => t.txdesc == 0x40000400 && t.rxdesc == 0x2004) = true ∧
      nextIs (exec (.storeRxdesc 4 0xffffffff) idle) (fun t => t.rxdesc == 0xfffffffc && t.txdesc == 0x1000) = true ∧
      nextIs (exec (.storeTxdesc 4 0x7) idle) (fun t => t.txdesc == 4) = true := by decide

/-- UM2, UM4, UM5: the whole offset counts. -/
theorem test_unmapped :
    nextIs (step (given (.busLoad 0x02 4) idle)) (fun t => t.trace == [.unhandledLoad 0x02, .loadReturn 0]) = true ∧
      nextIs (step (given (.busStore 0x01 4 1) idle))
        (fun t => t.ctrl == 0x08000000 && t.trace == [.unhandledStore 0x01]) = true ∧
      nextIs (step (given (.busLoad 0xfc 4) idle)) (fun t => t.trace == [.unhandledLoad 0xfc, .loadReturn 0]) = true := by
  decide

/-- UM6: the size is ignored. -/
theorem test_size_ignored :
    nextIs (step (given (.busStore 0x00 1 0x1) idle)) (fun t => t.ctrl == 0x08000001) = true := by decide

/-! ## Ring advance -/

/-- V2, V3, V6, V7, V8, V10. -/
theorem test_advance :
    advance 0x400003f8 false = 0x40000000 ∧ advance 0x400003fc false = 0x40000004 ∧
      advance 0x40000404 true = 0x40000400 ∧ advance 0xfffffff8 false = 0xfffffc00 ∧
      advance 0xfffffffc false = 0xfffffc04 ∧ advance 0x12345678 true = 0x12345400 := by decide

/-- W3, W4, W6, W10: the fields of word0. -/
theorem test_word0_fields :
    (txLength 0xfffff804 = 4 ∧ descEnable 0xfffff804 = true ∧ descWrap 0xfffff804 = true) ∧
      (txLength 0x17ff = 2047 ∧ descEnable 0x17ff = false ∧ descWrap 0x17ff = true) ∧
      (txLength 0x0fff = 2047 ∧ descEnable 0x0fff = true ∧ descWrap 0x0fff = false) ∧ txLength 0x183c = 60 := by decide

/-! ## Transmit -/

/-- T1. -/
theorem test_T1 :
    nextIs (exec (.storeCtrl 4 5) ringT1) (fun t =>
      sentOf t.trace == [[0xde, 0xad, 0xbe, 0xef]] && t.mem.readRange 0x40000000 8 == [0, 0, 0, 0, 0x40, 0, 0x10, 0] &&
        t.txdesc == 0x40000008 && t.status == 8 && t.irq && assertsOf t.trace == 1) = true := by decide

/-- T2 and T8: the line follows `TXIE`; one more assert signal where it is high already. -/
theorem test_T2_T8 :
    nextIs (exec (.storeCtrl 4 1) ringT1) (fun t => t.status == 8 && !t.irq && assertsOf t.trace == 0) = true ∧
      nextIs (exec (.storeCtrl 4 5) { ringT1 with status := 8, irq := true })
        (fun t => t.status == 8 && t.irq && assertsOf t.trace == 1) = true := by decide

/-- T3. -/
theorem test_T3 :
    nextIs (exec (.storeCtrl 4 4) ringT1) (fun t => t.ctrl == 0x08000004 && t.trace == [] && t.status == 0) = true := by
  decide

/-- T4: bits 31:13 of word0 ignored, the last slot wraps by the mask. -/
theorem test_T4 :
    nextIs (exec .txSend
      (holding 0x23f8 [0xff, 0xff, 0xe8, 0x01, 0, 0, 0x30, 0] (holding 0x3000 [0x7e] { idle with txdesc := 0x23f8 })))
      (fun t => sentOf t.trace == [[0x7e]] && t.txdesc == 0x2000 && t.mem.readRange 0x23f8 4 == [0, 0, 0, 0]) = true := by
  decide

/-- T5: the empty frame is sent, and `WR` at the ring base leaves the pointer. -/
theorem test_T5 :
    nextIs (exec (.storeCtrl 4 1) (holding 0x2000 [0, 0, 0x18, 0, 0, 0, 0, 0] { idle with txdesc := 0x2000 }))
      (fun t => sentOf t.trace == [[]] && t.txdesc == 0x2000 && t.mem == [] && t.status == 8) = true := by decide

/-- T7: a descriptor that straddles the window. -/
theorem test_T7 :
    nextIs (exec (.storeCtrl 4 1)
      (holding 0x13fc [0, 0, 0x08, 0x01, 0, 0, 0x30, 0] (holding 0x3000 [0x55] { idle with txdesc := 0x13fc })))
      (fun t => sentOf t.trace == [[0x55]] && t.txdesc == 0x1004 && t.mem.readRange 0x1400 4 == [0, 0, 0x30, 0]) = true := by
  decide

/-- T9: `EN = 0`; nothing but ctrl and the read. -/
theorem test_T9 :
    nextIs (exec (.storeCtrl 4 5) (holding 0x2000 [0, 0, 0x17, 0xff, 0, 0, 0x30, 0] { idle with txdesc := 0x2000 }))
      (fun t => t.ctrl == 0x08000005 && t.txdesc == 0x2000 && t.status == 0 && !t.irq && t.trace == [.memRead 0x2000 8]) =
      true := by decide

/-- A frame whose range lies over the register window, and a descriptor pointer at the end of the address space (R46). -/
theorem test_transmit_dmaError :
    isDmaError (exec .txSend (holding 0x40000000 [0, 0, 0x08, 0x04, 0x7f, 0xff, 0xff, 0xfd]
      { idle with txdesc := 0x40000000 })) = true ∧
    isDmaError (exec (.storeCtrl 4 1) { idle with txdesc := 0xfffffffc }) = true := by decide

/-- The platform's predicate is on the address and the number of bytes (D2): it can turn away four bytes where it admits eight,
and the reverse. -/
theorem test_admits_by_length :
    (admits cfg 0x50000010 8 = true ∧ admits cfg 0x50000010 4 = false) ∧
      (admits cfg 0x50000000 8 = false ∧ admits cfg 0x50000000 4 = true) := by decide

/-- A transmit whose fetch and frame are admitted and whose write-back is not. -/
theorem test_write_back_turned_away :
    isDmaError (exec .txSend (holding 0x50000010 [0, 0, 0x08, 0x01, 0, 0, 0x30, 0] { idle with txdesc := 0x50000010 })) =
      true := by decide

/-! ## Receive -/

/-- X1, X2, X3. -/
theorem test_X1_X2_X3 :
    nextIs (step (given (.receive [1, 2, 3]) { ringX4 with ctrl := 0x08000000 }))
      (fun t => t.trace == [.receiveReturn 0] && t.mem == ringX4.mem) = true ∧
    nextIs (step (given .canReceive idle)) (fun t => t.trace == [.canReceiveReturn false]) = true ∧
    nextIs (step (given .canReceive { idle with ctrl := 0x08000002 })) (fun t => t.trace == [.canReceiveReturn true]) =
      true := by decide

/-- X4 with a short frame: the bytes at word1, the length at word0, word1 kept. -/
theorem test_X4 :
    nextIs (step (given (.receive [0x0a, 0x0b, 0x0c]) ringX4)) (fun t =>
      t.mem.readRange 0x40002000 4 == [0x0a, 0x0b, 0x0c, 0] &&
        t.mem.readRange 0x40000400 8 == [0, 0, 0, 3, 0x40, 0, 0x20, 0] &&
        t.rxdesc == 0x40000408 && t.status == 4 && t.irq && t.trace.getLast? == some (.receiveReturn 3)) = true := by decide

/-- X5 and X6: `RXIE = 0`; `WR` of the fetched word0 wraps, though the write-back erases it. -/
theorem test_X5_X6 :
    nextIs (exec (.rxDeliver [1]) { ringX4 with ctrl := 0x08000002 }) (fun t => t.status == 4 && !t.irq) = true ∧
    nextIs (exec (.rxDeliver [1])
      (holding 0x40000408 [0, 0, 0x18, 0, 0x40, 0, 0x28, 0] { ringX4 with rxdesc := 0x40000408 }))
      (fun t => t.rxdesc == 0x40000400 && t.mem.readRange 0x40000408 4 == [0, 0, 0, 1]) = true := by decide

/-- X7: no buffer. -/
theorem test_X7 :
    nextIs (step (given (.receive [1, 2]) (holding 0x40000400 [0, 0, 0, 0x3c, 0x40, 0, 0x20, 0] ringX4)))
      (fun t => t.trace == [.memRead 0x40000400 8, .receiveReturn 0] && t.status == 0 && !t.irq &&
        t.rxdesc == 0x40000400) = true := by decide

/-- X10: the empty frame consumes the descriptor and returns 0. -/
theorem test_X10 :
    nextIs (exec (.rxDeliver []) ringX4)
      (fun t => t.rxdesc == 0x40000408 && t.status == 4 && t.mem.readRange 0x40000400 4 == [0, 0, 0, 0] &&
        t.trace.getLast? == some (.receiveReturn 0)) = true := by decide

/-- A frame that covers its own descriptor: word0 is written last (R64). -/
theorem test_frame_over_its_descriptor :
    nextIs (exec (.rxDeliver [0xaa, 0xbb, 0xcc, 0xdd, 0xee, 0xff])
      (holding 0x40000400 [0, 0, 0x08, 0, 0x40, 0, 0x04, 0] ringX4))
      (fun t => t.mem.readRange 0x40000400 8 == [0, 0, 0, 6, 0xee, 0xff, 0x04, 0]) = true := by decide

/-- LN6, LN10. -/
theorem test_length_words :
    be32bytes (rxLengthWord 2048) = [0, 0, 0x08, 0] ∧ be32bytes (rxLengthWord 6144) = [0, 0, 0x18, 0] := by decide

theorem test_receive_dmaError :
    isDmaError (exec (.rxDeliver [1]) (holding 0x40000400 [0, 0, 0x08, 0, 0xe0, 0, 0, 0xff] ringX4)) = true ∧
    isDmaError (exec (.rxNoBuf [1]) { ringX4 with rxdesc := 0x80000018 }) = true := by decide

/-! ## MDIO -/

/-- M2, M3, M5, M12 through the bus: the entries of the small platform are 0xa000 + their number. -/
theorem test_mdio_reads :
    mdioResult cfg 0x00000842 = 0xa0010840 ∧ mdioResult cfg 0xabcd0802 = 0x11400800 ∧
      mdioResult cfg 0x80000803 = 0x11400800 ∧ mdioResult cfg 0x00000fc2 = 0xa01f0fc0 := by decide

/-- M6, M8, M16; M4, M10, M15. -/
theorem test_mdio_others :
    mdioResult cfg 0x00001002 = 0xffff1004 ∧ mdioResult cfg 0x1234ffc1 = 0xffffffc4 ∧
      mdioResult cfg 0x0000f802 = 0xfffff804 ∧ mdioResult cfg 0x80000801 = 0x80000800 ∧
      mdioResult cfg 0x00000800 = 0x00000800 ∧ mdioResult cfg 0x12340841 = 0x12340840 := by decide

theorem test_mdio_store_and_load :
    nextIs (exec (.storeMdio 4 0x802) idle) (fun t => t.mdio == 0x11400800 && t.cfg.phyTable == cfg.phyTable) = true ∧
      nextIs (exec (.loadMdio 4) { idle with mdio := 0xffff0004 }) (fun t => t.trace == [.loadReturn 0xffff0004]) = true := by
  decide

/-! ## Reset and the line -/

/-- Z1. -/
theorem test_Z1 :
    nextIs (exec .reset { ringT1 with
        ctrl := 0x080001bf, status := 0xc, mdio := 0x11400800, rxdesc := 0x40000408, macHi := 0x1234,
        macLo := 0x56789abc, irq := true })
      (fun t => t.ctrl == 0x08000000 && t.status == 0 && t.mdio == 0 && t.txdesc == 0x40000000 && t.rxdesc == 0x40000408 &&
        t.macHi == 0x1234 && t.macLo == 0x56789abc && t.irq && t.mem == ringT1.mem && t.trace == []) = true := by decide

theorem test_lower :
    nextIs (step (given .lower { idle with irq := true, status := 8 })) (fun t => !t.irq && t.status == 8) = true := by decide

theorem test_guest_write_wraps :
    nextIs (step (given (.guestWrite 0xffffffff [1, 2]) idle)) (fun t => t.mem == [(0, 2), (0xffffffff, 1)]) = true := by
  decide

/-- Writing the value an unlisted address reads as removes the entry. -/
theorem test_memory_canonical :
    (Memory.writeByte [(4, 7), (9, 1)] 4 0) = [(9, 1)] ∧ Memory.wf [(4, 7), (4, 1)] = false ∧ Memory.wf [(4, 0)] = false ∧
      Memory.wf [(2 ^ 32, 1)] = false := by decide

/-! ## Witnesses: for each statement with hypotheses, operands and a state that meet them, one for each clause -/

theorem next_of {o : Host.Outcome State Fault Refusal} (h : nextIs o (fun _ => true) = true) : ∃ t, o = .next t := by
  cases o with
  | next t => exact ⟨t, rfl⟩
  | fault r => simp [nextIs] at h
  | refused r => simp [nextIs] at h

theorem test_witness_DecodeEncodeAgree :
    (Instr.loadUnmapped 0x1c 4).wf = true ∧ (Instr.storeUnmapped 0xffffffff 1 7).wf = true ∧
      (Instr.mdioNoPhy 0x1000).wf = true ∧ (Instr.mdioWrite 0xffff0ffd).wf = true ∧ (Instr.mdioRead 0x0fff).wf = true ∧
      (Instr.rxOff []).wf = true ∧ (Instr.rxNoBuf [1]).wf = true ∧ (Instr.rxDeliver [1, 2]).wf = true := by decide

theorem test_witness_DecodedOperationsAreWellFormed :
    decode [0x1c, 0, 0, 0, 1, 2, 0, 0, 9, 0, 0, 0, 0, 0, 0, 0] = .ok (.storeUnmapped 0x1c 2 9) := by decide

theorem test_witness_OffsetSelectsTheBusOperation :
    (0x01 : Word) ∉ ([0x00, 0x04, 0x08, 0x0c, 0x10, 0x14, 0x18] : List Word) ∧
      (0x17 : Word) ∉ ([0x00, 0x04, 0x08, 0x0c, 0x10, 0x14, 0x18] : List Word) ∧
      (0x1c : Word) ∉ ([0x00, 0x04, 0x08, 0x0c, 0x10, 0x14, 0x18] : List Word) ∧
      (0xffffffff : Word) ∉ ([0x00, 0x04, 0x08, 0x0c, 0x10, 0x14, 0x18] : List Word) := by decide

theorem test_witness_ValueSelectsTheMdioRequest :
    (((0xffff07ff : Word) >>> 11) &&& 0x1f ≠ 1 ∧ ((0x1002 : Word) >>> 11) &&& 0x1f ≠ 1) ∧
      (((0xffff0ffd : Word) >>> 11) &&& 0x1f = 1 ∧ ((0xffff0ffd : Word) >>> 1) &&& 1 = 0) ∧
      (((0x0802 : Word) >>> 11) &&& 0x1f = 1 ∧ ((0x0802 : Word) >>> 1) &&& 1 = 1) := by decide

theorem test_witness_StepRunsTheDecodedOperation :
    (given (.busLoad 0x1c 4) idle).inputs = [.busLoad 0x1c 4] ∧
      present (.busLoad 0x1c 4) idle = .operation { space := .busLoadOffset, x := 0x1c, size := 4 } ∧
      decodeRecord { space := .busLoadOffset, x := 0x1c, size := 4 } = .ok (.loadUnmapped 0x1c 4) :=
  ⟨rfl, rfl, by decide⟩

theorem test_witness_NoEventNoChange : State.reset.inputs = [] ∧ ringT1.inputs = [] := ⟨rfl, rfl⟩

theorem test_witness_EventRunsItsOperation :
    (given (.busLoad 0xffffffff 0) idle).inputs = [.busLoad 0xffffffff 0] ∧
      (given (.busStore 0x18 8 (2 ^ 32)) idle).inputs = [.busStore 0x18 8 (2 ^ 32)] ∧
      (given .canReceive idle).inputs = [.canReceive] ∧ (given .reset idle).inputs = [.reset] := ⟨rfl, rfl, rfl, rfl⟩

theorem test_witness_EngineOutcomesAreSelectedByCtrlThenWord0 :
    (((0xfffffffe : Word) &&& 0x1bf) ||| 0x08000000).getLsbD 0 = false ∧
      (((1 : Word) &&& 0x1bf) ||| 0x08000000).getLsbD 0 = true ∧
      (descriptorAt idle.mem idle.txdesc).word0.getLsbD 11 = false ∧
      (descriptorAt ringT1.mem ringT1.txdesc).word0.getLsbD 11 = true ∧
      (given (.receive [1]) ringX4).inputs = [.receive [1]] ∧
      idle.ctrl.getLsbD 1 = false ∧ ringX4.ctrl.getLsbD 1 = true ∧
      (descriptorAt ringX4.mem ringX4.rxdesc).word0.getLsbD 11 = true ∧
      (descriptorAt [] ringX4.rxdesc).word0.getLsbD 11 = false ∧ (given .canReceive idle).inputs = [.canReceive] := by decide

theorem test_witness_EnvironmentMovesBetweenEvents :
    (given .lower idle).inputs = [.lower] ∧
      (given (.guestWrite 0xfffffffe [1, 2, 3]) ringT1).inputs = [.guestWrite 0xfffffffe [1, 2, 3]] ∧
      ringT1.mem.wf = true ∧ ([1, 2, 3] : List Byte).length ≤ 2 ^ 32 ∧
      (∀ k, k < 3 → 5 ≠ ((0xfffffffe : Word) + BitVec.ofNat 32 k).toNat) := by decide

theorem test_witness_EveryOperationCompletes :
    dmaAdmitted .txSend ringT1 ∧ dmaAdmitted (.storeCtrl 4 5) ringT1 ∧ dmaAdmitted .txIdle idle ∧
      dmaAdmitted (.rxDeliver [1, 2]) ringX4 ∧ dmaAdmitted (.rxNoBuf [1]) ringX4 ∧ dmaAdmitted .reset idle := by decide

theorem test_witness_AccessesAreThoseOfTheTable :
    (∃ t, exec (.storeCtrl 4 5) ringT1 = .next t) ∧ (∃ t, exec (.rxDeliver [1]) ringX4 = .next t) :=
  ⟨next_of (by decide), next_of (by decide)⟩

theorem test_witness_AdmitsExclusions :
    2 ^ 32 < (0xffffffff : Word).toNat + 2 ∧
      ((0x7fffffff : Word).toNat ≤ 0x80000000 ∧ 0x80000000 < (0x7fffffff : Word).toNat + 2 ∧
        cfg.regBase.toNat ≤ 0x80000000 ∧ 0x80000000 < cfg.regBase.toNat + cfg.regWindowSize) ∧
      ((0xe00000ff : Word).toNat ≤ 0xe00000ff ∧ 0xe00000ff < (0xe00000ff : Word).toNat + 1 ∧
        ∃ h ∈ cfg.holes, h.1 ≤ 0xe00000ff ∧ 0xe00000ff < h.1 + h.2) ∧
      (0 < 4 ∧ ((0x50000010 : Word), 4) ∈ cfg.turnedAway) ∧
      ((0xfffffffe : Word).toNat + 2 ≤ 2 ^ 32 ∧ ((0xfffffffe : Word), 2) ∉ cfg.turnedAway ∧
        ∀ a : Nat, (0xfffffffe : Word).toNat ≤ a → a < (0xfffffffe : Word).toNat + 2 →
          ¬ (cfg.regBase.toNat ≤ a ∧ a < cfg.regBase.toNat + cfg.regWindowSize) ∧
            ∀ h ∈ cfg.holes, ¬ (h.1 ≤ a ∧ a < h.1 + h.2)) := by
  refine ⟨by decide, by decide, by decide, by decide, by decide, by decide, ?_⟩
  intro a h1 h2
  simp only [cfg, List.mem_singleton, forall_eq]
  simp at h1 h2 ⊢
  omega

theorem test_witness_MemoryFrame :
    (∃ t, exec .txSend ringT1 = .next t) ∧ ¬ storedTo .txSend ringT1 0x40000004 ∧ ¬ storedTo .txSend ringT1 0x3fffffff := by
  refine ⟨next_of (by decide), ?_, ?_⟩ <;> · unfold storedTo; decide

theorem test_witness_TxdescStoreClearsTheLowBits :
    (∃ t, exec .txSend ringT1 = .next t) ∧ (∀ size v, Instr.txSend ≠ .storeTxdesc size v) := ⟨next_of (by decide), by simp⟩

theorem test_witness_RxdescStoreClearsTheLowBits :
    (∃ t, exec (.rxDeliver [1]) ringX4 = .next t) ∧ (∀ size v, Instr.rxDeliver [1] ≠ .storeRxdesc size v) :=
  ⟨next_of (by decide), by simp⟩

theorem test_witness_ReadbackLaw :
    (∃ t, exec (.storeCtrl 4 0xffffffff) ringT1 = .next t) ∧ (∃ t, exec (.storeStatus 4 0xc) idle = .next t) ∧
      (∃ t, exec (.storeMacHi 4 0xffffffff) idle = .next t) ∧ (∃ t, exec (.storeMacLo 4 1) idle = .next t) ∧
      (∃ t, exec (.storeMdio 4 0x802) idle = .next t) ∧ (∃ t, exec (.storeTxdesc 4 3) idle = .next t) ∧
      (∃ t, exec (.storeRxdesc 4 3) idle = .next t) :=
  ⟨next_of (by decide), ⟨_, rfl⟩, ⟨_, rfl⟩, ⟨_, rfl⟩, next_of (by decide), ⟨_, rfl⟩, ⟨_, rfl⟩⟩

/-- The load meets the hypotheses of every clause; the completed transmit those of the clauses it leaves open. -/
theorem test_witness_RegistersAreIndependent :
    ((∃ t, exec (.loadCtrl 4) idle = .next t) ∧ (∀ size v, Instr.loadCtrl 4 ≠ .storeCtrl size v) ∧
      (∀ size v, Instr.loadCtrl 4 ≠ .storeMacHi size v) ∧ (∀ size v, Instr.loadCtrl 4 ≠ .storeMacLo size v) ∧
      (∀ size v, Instr.loadCtrl 4 ≠ .storeMdio size v) ∧
      (∀ v, Instr.loadCtrl 4 ≠ .mdioNoPhy v ∧ Instr.loadCtrl 4 ≠ .mdioWrite v ∧ Instr.loadCtrl 4 ≠ .mdioRead v) ∧
      (∀ size v, Instr.loadCtrl 4 ≠ .storeTxdesc size v) ∧ (∀ size v, Instr.loadCtrl 4 ≠ .storeRxdesc size v) ∧
      (∀ size v, Instr.loadCtrl 4 ≠ .storeStatus size v) ∧ Instr.loadCtrl 4 ≠ .reset ∧
      completesTransmit (.loadCtrl 4) idle = false ∧ completesReceive (.loadCtrl 4) idle = false) ∧
    ((∃ t, exec .txSend ringT1 = .next t) ∧ completesReceive .txSend ringT1 = false) := by
  refine ⟨⟨⟨_, rfl⟩, ?_⟩, next_of (by decide), rfl⟩
  simp [completesTransmit, completesReceive]

theorem test_witness_CtrlStoreReplacesCtrl :
    dmaAdmitted (.storeCtrl 4 0) { idle with txdesc := 0xfffffffc } ∧ dmaAdmitted (.storeCtrl 4 0xffffffff) ringT1 := by
  decide

theorem test_witness_TransmitOffDoesNothing : (0xfffffffe : Word).getLsbD 0 = false := by decide

theorem test_witness_TransmitIdleOnlyReads :
    admits cfg 0xfffffff8 8 = true ∧ admits cfg 0xfffffffc 8 = false ∧ admits cfg 0x7ffffffc 8 = false ∧
      (1 : Word).getLsbD 0 = true ∧ (descriptorAt idle.mem idle.txdesc).word0.getLsbD 11 = false ∧
      admits idle.cfg idle.txdesc 8 = true := by decide

theorem test_witness_TransmitTransaction :
    ((descriptorAt idle.mem idle.txdesc).word0.getLsbD 11 = false ∧ admits cfg idle.txdesc 8 = true) ∧
      ((descriptorAt ringT1.mem ringT1.txdesc).word0.getLsbD 11 = true ∧ admits cfg ringT1.txdesc 8 = true ∧
        admits cfg (descriptorAt ringT1.mem ringT1.txdesc).word1
          ((descriptorAt ringT1.mem ringT1.txdesc).word0 &&& 0x7ff).toNat = true ∧ admits cfg ringT1.txdesc 4 = true) ∧
      admits cfg 0xfffffffc 8 = false := by decide

theorem test_witness_TransmitZeroesWord0Only :
    ringT1.mem.wf = true ∧ completesTransmit (.storeCtrl 4 5) ringT1 = true ∧
      ∃ t, exec (.storeCtrl 4 5) ringT1 = .next t := ⟨by decide, by decide, next_of (by decide)⟩

theorem test_witness_SentFrameIsTheMemoryAtWord1 :
    completesTransmit .txSend ringT1 = true ∧ ∃ t, exec .txSend ringT1 = .next t := ⟨by decide, next_of (by decide)⟩

theorem test_witness_OneDescriptorPerStore :
    (completesTransmit (.storeCtrl 4 1) ringT1 = true ∧ ∃ t, exec (.storeCtrl 4 1) ringT1 = .next t) ∧
      (completesTransmit (.storeCtrl 4 1) idle = false ∧ (∀ size v, Instr.storeCtrl 4 1 ≠ .storeTxdesc size v) ∧
        ∃ t, exec (.storeCtrl 4 1) idle = .next t) :=
  ⟨⟨by decide, next_of (by decide)⟩, by decide, by simp, next_of (by decide)⟩

theorem test_witness_AdvanceStaysInTheWindow :
    (0xfffffffc : Word).toNat % 4 = 0 ∧ (0xfffffff8 : Word).toNat % 8 = 0 := by decide

theorem test_witness_RingWithoutWrapHas128Slots : 0 < 128 ∧ 128 ≤ 128 ∧ 0 < 1 ∧ 1 ≤ 128 := by decide

theorem test_witness_ReceiveNoBufferOnlyReads :
    (ringX4.ctrl.getLsbD 1 = true ∧ admits cfg ringX4.rxdesc 8 = true) ∧ admits cfg 0x7ffffffc 8 = false ∧
      idle.ctrl.getLsbD 1 = false := by decide

theorem test_witness_ReceiveTransaction :
    idle.ctrl.getLsbD 1 = false ∧
      (ringX4.ctrl.getLsbD 1 = true ∧ (descriptorAt [] ringX4.rxdesc).word0.getLsbD 11 = false ∧
        admits cfg ringX4.rxdesc 8 = true) ∧
      ((descriptorAt ringX4.mem ringX4.rxdesc).word0.getLsbD 11 = true ∧
        admits cfg (descriptorAt ringX4.mem ringX4.rxdesc).word1 0 = true ∧
        admits cfg (descriptorAt ringX4.mem ringX4.rxdesc).word1 1514 = true ∧ admits cfg ringX4.rxdesc 4 = true) ∧
      admits cfg 0xfffffffc 8 = false := by decide

/-- A frame of any length up to 8191 bytes is delivered in `ringX4`. -/
theorem ringX4_delivers (frame : Frame) (h : admits cfg 0x40002000 frame.length = true) :
    ∃ t, exec (.rxDeliver frame) ringX4 = .next t := by
  rcases execRxDeliver_cases frame ringX4 with ⟨h1, -⟩ | ⟨-, h1, -⟩ | ⟨-, -, -, -, -, e⟩ | ⟨-, -, h1 | ⟨-, h1 | h1⟩⟩
  · exact absurd h1 (by decide)
  · exact absurd h1 (by decide)
  · exact ⟨_, e⟩
  · exact absurd h1 (by decide)
  · rw [show (descriptorAt ringX4.mem ringX4.rxdesc).word1 = 0x40002000 by decide] at h1
    exact absurd (h.symm.trans h1) (by decide)
  · exact absurd h1 (by decide)

theorem ringX4_completes (frame : Frame) : completesReceive (.rxDeliver frame) ringX4 = true := by
  simp only [completesReceive]
  decide

theorem test_witness_DeliveredFrameLandsAtWord1 :
    ringX4.mem.wf = true ∧ completesReceive (.rxDeliver [7, 8]) ringX4 = true ∧
      (∃ t, exec (.rxDeliver [7, 8]) ringX4 = .next t) ∧ ringX4.rxdesc.toNat = 0x40000400 ∧
      (descriptorAt ringX4.mem ringX4.rxdesc).word1.toNat = 0x40002000 ∧
      ¬ (0x40000400 ≤ 0x40002000 + 1 ∧ 0x40002000 + 1 < 0x40000400 + 4) ∧
      (¬ (0x40000400 ≤ 0x40000404 ∧ 0x40000404 < 0x40000400 + 4) ∧
        ¬ (0x40002000 ≤ 0x40000404 ∧ 0x40000404 < 0x40002000 + 2)) :=
  ⟨by decide, ringX4_completes _, ringX4_delivers _ (by decide), by decide, by decide, by decide, by decide, by decide⟩

/-- At 0, 2047, 2048, 4095, 4096 and 8191 bytes. -/
theorem test_witness_WriteBackReadAsADescriptor (n : Nat) (h : n ∈ [0, 2047, 2048, 4095, 4096, 8191]) :
    ringX4.mem.wf = true ∧ completesReceive (.rxDeliver (List.replicate n 0xff)) ringX4 = true ∧
      (List.replicate n (0xff : Byte)).length = n ∧
      ∃ t, exec (.rxDeliver (List.replicate n 0xff)) ringX4 = .next t := by
  refine ⟨by decide, ringX4_completes _, List.length_replicate, ringX4_delivers _ ?_⟩
  rw [List.length_replicate]
  simp only [List.mem_cons, List.not_mem_nil, or_false] at h
  rcases h with rfl | rfl | rfl | rfl | rfl | rfl <;> decide

theorem test_witness_BoundedPortHandsTheSlotBack :
    ringX4.mem.wf = true ∧ ringX4.cfg.maxRxFrame.toNat < 2048 ∧
      Event.allowed ringX4.cfg (.receive (List.replicate 1514 0)) = true ∧
      completesReceive (.rxDeliver (List.replicate 1514 0)) ringX4 = true ∧
      (∃ t, exec (.rxDeliver (List.replicate 1514 0)) ringX4 = .next t ∧
        ∃ u : State, u.mem = t.mem ∧ u.rxdesc = ringX4.rxdesc ∧ u.ctrl.getLsbD 1 = true) := by
  refine ⟨by decide, by decide, test_allowed_refuses_a_frame_over_the_bound.2, ringX4_completes _, ?_⟩
  obtain ⟨t, ht⟩ := ringX4_delivers (List.replicate 1514 0) (by rw [List.length_replicate]; decide)
  exact ⟨t, ht, { ringX4 with mem := t.mem }, rfl, rfl, by show ringX4.ctrl.getLsbD 1 = true; decide⟩

theorem test_witness_MdioResultLayout :
    (∃ t, exec (.storeMdio 4 0x1002) idle = .next t) ∧ (∃ t, exec (.storeMdio 4 0x800) idle = .next t) ∧
      (∃ t, exec (.storeMdio 4 0x802) idle = .next t) :=
  ⟨next_of (by decide), next_of (by decide), next_of (by decide)⟩

theorem test_witness_PowerOnValues : Config.wf cfg = true ∧ Config.wf { cfg with txdescPowerOn := 0xfffffffc } = true := by
  decide

theorem test_witness_StatusBitsAreSetByTheEnginesOnly :
    ((∃ t, exec .txSend ringT1 = .next t) ∧ completesTransmit .txSend ringT1 = true) ∧
      ((∃ t, exec (.rxDeliver [1]) ringX4 = .next t) ∧ completesReceive (.rxDeliver [1]) ringX4 = true) :=
  ⟨⟨next_of (by decide), by decide⟩, next_of (by decide), by decide⟩

theorem test_witness_AssertedExactlyOnEnabledCompletion :
    ((∃ t, exec (.storeCtrl 4 5) ringT1 = .next t) ∧ (ctrlInForce (.storeCtrl 4 5) ringT1).getLsbD 2 = true) ∧
      ((∃ t, exec .txSend ringT1 = .next t) ∧ (ctrlInForce .txSend ringT1).getLsbD 2 = false) :=
  ⟨⟨next_of (by decide), by decide⟩, next_of (by decide), by decide⟩

theorem test_witness_OnlyTheConsumerLowersTheLine :
    (∃ t, exec .reset { idle with irq := true } = .next t) ∧
      (∃ t, step (given .lower { idle with irq := true }) = .next t ∧ t.irq = false) := ⟨⟨_, rfl⟩, _, rfl, rfl⟩

theorem test_witness_StatusReadsAsOneOfFour :
    Inv idle ∧ Inv { idle with status := 0x4 } ∧ Inv { idle with status := 0x8 } ∧ Inv { idle with status := 0xc } := by
  decide

theorem test_witness_StepKeepsTheInvariant :
    (Inv (given (.busStore 0 4 5) ringT1) ∧ ∃ t, step (given (.busStore 0 4 5) ringT1) = .next t) ∧
      (Inv (given (.receive [1]) { ringX4 with mdio := 0xffff1004 }) ∧
        ∃ t, step (given (.receive [1]) { ringX4 with mdio := 0xffff1004 }) = .next t) ∧
      Inv { idle with mdio := 0x11400800 } := by
  refine ⟨⟨by decide, next_of (by decide)⟩, ⟨by decide, next_of (by decide)⟩, by decide⟩

theorem test_witness_MacAddressDoesNotInterfere :
    (∀ size, Instr.txSend ≠ .loadMacHi size) ∧ (∀ size, Instr.txSend ≠ .loadMacLo size) ∧
      (∀ size v, Instr.txSend ≠ .storeMacHi size v) ∧ (∀ size v, Instr.txSend ≠ .storeMacLo size v) := by simp

theorem test_witness_StatusIsReadByNoOtherOperation :
    (∀ size, Instr.storeCtrl 4 5 ≠ .loadStatus size) ∧ ∃ t, exec (.storeCtrl 4 5) ringT1 = .next t :=
  ⟨by simp, next_of (by decide)⟩

theorem test_witness_ParametersAreConstant : ∃ t, step (given (.busStore 0 4 1) ringT1) = .next t := next_of (by decide)

theorem test_witness_TraceOnlyGrows : ∃ t, step (given (.receive [1, 2]) ringX4) = .next t := next_of (by decide)

theorem test_witness_IdempotentOperations :
    ((∀ v size, Instr.storeCtrl 4 0xe = .storeCtrl size v → v.getLsbD 0 = false) ∧ Instr.storeCtrl 4 0xe ≠ .txIdle ∧
      Instr.storeCtrl 4 0xe ≠ .txSend ∧
      (∀ f, Instr.storeCtrl 4 0xe ≠ .rxOff f ∧ Instr.storeCtrl 4 0xe ≠ .rxNoBuf f ∧ Instr.storeCtrl 4 0xe ≠ .rxDeliver f) ∧
      ∃ t, exec (.storeCtrl 4 0xe) ringT1 = .next t) ∧
    ∃ t, exec (.storeStatus 4 8) { idle with status := 0xc } = .next t := by
  refine ⟨⟨?_, by simp, by simp, by simp, next_of (by decide)⟩, _, rfl⟩
  intro v size h
  cases h
  decide

end Sys2Proof.Tests
end

section
/-! PROOFS. What an operation leaves in status (R13, R21, R109, R138, R157, R220), and that only the engines set a flag. -/

namespace Sys2Proof.Machine

section StatusLaws

variable {i : Instr} {s t : State}

/-! ## The flags as bits -/

/-- The status bit of a source's flag (R13). -/
def flagBit : Source → Nat
  | .transmit => 3
  | .receive => 2

theorem flagOf_eq_twoPow (src : Source) : flagOf src = BitVec.twoPow 32 (flagBit src) := by
  cases src <;> rfl

theorem flagBit_lt (src : Source) : flagBit src < 32 := by
  cases src <;> decide

@[simp] theorem setFlag_getLsbD (status : Word) (src : Source) (k : Nat) :
    (setFlag status src).getLsbD k = (status.getLsbD k || decide (k = flagBit src)) := by
  simp [setFlag, flagOf_eq_twoPow, BitVec.getLsbD_twoPow, flagBit_lt, eq_comm (a := k)]

theorem setFlag_getLsbD_iff {status : Word} {src : Source} {k : Nat} :
    (setFlag status src).getLsbD k = true ↔ status.getLsbD k = true ∨ k = flagBit src := by
  simp

theorem setFlag_getLsbD_flagBit (status : Word) (src : Source) : (setFlag status src).getLsbD (flagBit src) = true := by
  simp

theorem setFlag_getLsbD_other (status : Word) {src : Source} {k : Nat} (h : k ≠ flagBit src) :
    (setFlag status src).getLsbD k = status.getLsbD k := by
  simp [h]

/-- Acknowledging sets no bit (R109). -/
theorem getLsbD_of_clearStatus {status value : Word} {k : Nat} (h : (clearStatus status value).getLsbD k = true) :
    status.getLsbD k = true := by
  rw [clearStatus, BitVec.getLsbD_and, Bool.and_eq_true] at h
  exact h.1

/-! ## What the engines leave in status -/

@[simp] theorem txSendState_status (s : State) (d : Descriptor) :
    (txSendState s d).status = setFlag s.status .transmit := by
  simp [txSendState, txComplete]

@[simp] theorem rxDeliverState_status (s : State) (d : Descriptor) (frame : Frame) :
    (rxDeliverState s d frame).status = setFlag s.status .receive := by
  simp [rxDeliverState]

theorem execTxIdle_status (h : execTxIdle s = .next t) : t.status = s.status := by
  rcases execTxIdle_cases s with ⟨-, e⟩ | ⟨-, e⟩ <;> rw [e] at h <;> cases h
  rfl

theorem execTxSend_status (h : execTxSend s = .next t) :
    t.status =
      if descEnable (descriptorAt s.mem s.txdesc).word0 then setFlag s.status .transmit else s.status := by
  rcases execTxSend_cases s with ⟨hen, -, e⟩ | ⟨hen, -, -, -, e⟩ | ⟨e, -⟩ <;> rw [e] at h <;> cases h <;> simp [hen]

theorem transmitAfterStore_status (h : transmitAfterStore s = .next t) :
    t.status =
      if txEnabled s.ctrl && descEnable (descriptorAt s.mem s.txdesc).word0 then setFlag s.status .transmit
      else s.status := by
  rcases transmitAfterStore_cases s with ⟨htx, e⟩ | ⟨htx, hen, e⟩ | ⟨htx, hen, e⟩ <;> rw [e] at h
  · cases h
    simp [htx]
  · simp [hen, execTxIdle_status h]
  · simp [htx, hen, execTxSend_status h]

theorem execRxNoBuf_status {frame : Frame} (h : execRxNoBuf frame s = .next t) : t.status = s.status := by
  rcases execRxNoBuf_cases frame s with ⟨-, e⟩ | ⟨-, -, e⟩ | ⟨-, -, e⟩ <;> rw [e] at h <;> cases h <;> rfl

theorem execRxDeliver_status {frame : Frame} (h : execRxDeliver frame s = .next t) :
    t.status =
      if rxEnabled s.ctrl && descEnable (descriptorAt s.mem s.rxdesc).word0 then setFlag s.status .receive
      else s.status := by
  rcases execRxDeliver_cases frame s with ⟨hrx, e⟩ | ⟨hrx, hen, -, e⟩ | ⟨hrx, hen, -, -, -, e⟩ | ⟨-, e, -⟩ <;>
    rw [e] at h <;> cases h
  · simp [hrx]
  · simp [hen]
  · simp [hrx, hen]

/-- A ctrl store enables the transmitter exactly when it writes bit 0 (R11, R108). -/
@[simp] theorem txEnabled_newCtrl (value : Word) : txEnabled (newCtrl value) = value.getLsbD 0 := by
  simp [txEnabled, newCtrl, bitTxen]

/-! ## What any operation leaves in status -/

/-- status after an operation in which no transfer completes: a status store clears the bits it names, reset clears all,
and every other operation keeps it. -/
def statusWithoutTransfer (i : Instr) (s : State) : Word :=
  match i with
  | .storeStatus _ value => clearStatus s.status value
  | .reset => 0
  | _ => s.status

/-- status after an operation that completes: a completed transfer sets its own flag. -/
def statusAfter (i : Instr) (s : State) : Word :=
  if completesTransmit i s then setFlag s.status .transmit
  else if completesReceive i s then setFlag s.status .receive
  else statusWithoutTransfer i s

@[simp] theorem statusWithoutTransfer_reset (s : State) : statusWithoutTransfer .reset s = 0 := rfl

/-- No bit is set where no transfer completes. -/
theorem getLsbD_of_statusWithoutTransfer {k : Nat} (h : (statusWithoutTransfer i s).getLsbD k = true) :
    s.status.getLsbD k = true := by
  cases i with
  | storeStatus size value => exact getLsbD_of_clearStatus h
  | reset => simp at h
  | _ => exact h

theorem exec_status (h : exec i s = .next t) : t.status = statusAfter i s := by
  cases i with
  | storeCtrl size value =>
    rw [transmitAfterStore_status (s := { s with ctrl := newCtrl value }) h, txEnabled_newCtrl]
    rfl
  | storeMdio size value =>
    cases (mdioRequest_eq value s).symm.trans h
    rfl
  | txIdle => exact execTxIdle_status h
  | txSend => exact execTxSend_status h
  | rxNoBuf frame => exact execRxNoBuf_status (frame := frame) h
  | rxDeliver frame => exact execRxDeliver_status (frame := frame) h
  | _ => cases h; rfl

/-- No operation runs both engines. -/
theorem completesTransmit_of_completesReceive (h : completesReceive i s = true) : completesTransmit i s = false := by
  cases i with
  | rxDeliver frame => rfl
  | _ => cases h

theorem statusAfter_of_completesTransmit (h : completesTransmit i s = true) :
    statusAfter i s = setFlag s.status .transmit := by
  simp [statusAfter, h]

theorem statusAfter_of_completesReceive (h : completesReceive i s = true) :
    statusAfter i s = setFlag s.status .receive := by
  simp [statusAfter, h, completesTransmit_of_completesReceive h]

theorem statusAfter_of_no_transfer (htx : completesTransmit i s = false) (hrx : completesReceive i s = false) :
    statusAfter i s = statusWithoutTransfer i s := by
  simp [statusAfter, htx, hrx]

end StatusLaws

/-- Settles O47: status after every operation is `statusAfter`, which sets a bit only on a completed transfer. -/
theorem statusBitsAreSetByTheEnginesOnly : Obligations.StatusBitsAreSetByTheEnginesOnly := by
  intro i s t h
  rw [exec_status h]
  refine ⟨fun k hk => ?_, fun htx => ?_, fun hrx => ?_⟩
  · cases htx : completesTransmit i s with
    | true =>
      rw [statusAfter_of_completesTransmit htx] at hk
      exact (setFlag_getLsbD_iff.1 hk).imp_right fun hbit => .inl ⟨hbit, rfl⟩
    | false =>
      cases hrx : completesReceive i s with
      | true =>
        rw [statusAfter_of_completesReceive hrx] at hk
        exact (setFlag_getLsbD_iff.1 hk).imp_right fun hbit => .inr ⟨hbit, rfl⟩
      | false =>
        rw [statusAfter_of_no_transfer htx hrx] at hk
        exact .inl (getLsbD_of_statusWithoutTransfer hk)
  · rw [statusAfter_of_completesTransmit htx]
    exact ⟨setFlag_getLsbD_flagBit _ .transmit, fun _ => setFlag_getLsbD_other _ (src := .transmit)⟩
  · rw [statusAfter_of_completesReceive hrx]
    exact ⟨setFlag_getLsbD_flagBit _ .receive, fun _ => setFlag_getLsbD_other _ (src := .receive)⟩

end Sys2Proof.Machine
end

section
/-! PROOFS. Which operation a request selects: the kind of an MDIO request (R82), and the three outcomes of each engine
(R81). -/

namespace Sys2Proof.Machine

/-! ## The kind of an MDIO request -/

theorem mdioReadFlag_iff (value : Word) : (value >>> 1) &&& 1 = 1 ↔ mdioReadFlag value = true := by
  rw [mdioReadFlag_eq]
  cases mdioReadFlag value <;> decide

theorem mdioReadFlag_eq_false_iff (value : Word) : (value >>> 1) &&& 1 = 0 ↔ mdioReadFlag value = false := by
  rw [mdioReadFlag_eq]
  cases mdioReadFlag value <;> decide

/-- Settles O5: the tested bits make the request's operation well-formed, and the record of a well-formed operation decodes
to it. -/
theorem valueSelectsTheMdioRequest : Obligations.ValueSelectsTheMdioRequest := by
  intro value
  simp only [ne_eq, mdioPhyAddress_eq_one, mdioReadFlag_iff, mdioReadFlag_eq_false_iff]
  refine ⟨fun hphy => ?_, fun hphy hread => ?_, fun hphy hread => ?_⟩
  · exact Laws.RecordRoundTrip.mdioNoPhy value (decide_eq_true hphy)
  · exact Laws.RecordRoundTrip.mdioWrite value (by simp [Instr.wf, hphy, hread])
  · exact Laws.RecordRoundTrip.mdioRead value (by simp [Instr.wf, hphy, hread])

/-! ## A step that serves an operation -/

theorem tookInput_of_inputs {s : State} {e : Event} {rest : List Event} (h : s.inputs = e :: rest) :
    s.tookInput = { s with inputs := rest } := by
  simp [State.tookInput, h]

/-- A step on an event that presents a decodable record runs the operation decoded. -/
theorem step_eq_exec {s : State} {e : Event} {rest : List Event} {r : OpRecord} {i : Instr} (h : s.inputs = e :: rest)
    (hpresent : present e { s with inputs := rest } = .operation r) (hdecode : decodeRecord r = .ok i) :
    step s = exec i { s with inputs := rest } := by
  simp only [step, h, tookInput_of_inputs h, hpresent, hdecode]

/-! ## The outcome of each engine -/

/-- The transmit operation that ctrl, and then word0 at txdesc, select (R81). -/
def transmitOperation (s : State) : Instr :=
  if txEnabled s.ctrl then
    (if descEnable (descriptorAt s.mem s.txdesc).word0 then .txSend else .txIdle)
  else .txOff

/-- The receive operation that ctrl, and then word0 at rxdesc, select (R81). -/
def receiveOperation (frame : Frame) (s : State) : Instr :=
  if rxEnabled s.ctrl then
    (if descEnable (descriptorAt s.mem s.rxdesc).word0 then .rxDeliver frame else .rxNoBuf frame)
  else .rxOff frame

section Selection

variable {s : State} {frame : Frame}

theorem transmitOperation_off (htx : txEnabled s.ctrl = false) : transmitOperation s = .txOff := by
  simp [transmitOperation, htx]

theorem transmitOperation_idle (htx : txEnabled s.ctrl = true)
    (hen : descEnable (descriptorAt s.mem s.txdesc).word0 = false) : transmitOperation s = .txIdle := by
  simp [transmitOperation, htx, hen]

theorem transmitOperation_send (htx : txEnabled s.ctrl = true)
    (hen : descEnable (descriptorAt s.mem s.txdesc).word0 = true) : transmitOperation s = .txSend := by
  simp [transmitOperation, htx, hen]

theorem receiveOperation_off (hrx : rxEnabled s.ctrl = false) : receiveOperation frame s = .rxOff frame := by
  simp [receiveOperation, hrx]

theorem receiveOperation_noBuf (hrx : rxEnabled s.ctrl = true)
    (hen : descEnable (descriptorAt s.mem s.rxdesc).word0 = false) : receiveOperation frame s = .rxNoBuf frame := by
  simp [receiveOperation, hrx, hen]

theorem receiveOperation_deliver (hrx : rxEnabled s.ctrl = true)
    (hen : descEnable (descriptorAt s.mem s.rxdesc).word0 = true) : receiveOperation frame s = .rxDeliver frame := by
  simp [receiveOperation, hrx, hen]

end Selection

theorem transmitAfterStore_eq_exec (s : State) : transmitAfterStore s = exec (transmitOperation s) s := by
  rcases transmitAfterStore_cases s with ⟨htx, e⟩ | ⟨htx, hen, e⟩ | ⟨htx, hen, e⟩
  · rw [e, transmitOperation_off htx]; rfl
  · rw [e, transmitOperation_idle htx hen]; rfl
  · rw [e, transmitOperation_send htx hen]; rfl

/-- A ctrl store runs the transmit operation that the state with the new ctrl selects (R108). -/
theorem exec_storeCtrl (size : Byte) (value : Word) (s : State) :
    exec (.storeCtrl size value) s =
      exec (transmitOperation { s with ctrl := newCtrl value }) { s with ctrl := newCtrl value } :=
  transmitAfterStore_eq_exec { s with ctrl := newCtrl value }

theorem decodeRecord_receiveRecord (frame : Frame) (s : State) :
    decodeRecord (receiveRecord frame s) = .ok (receiveOperation frame s) := by
  cases hrx : rxEnabled s.ctrl with
  | false =>
    have hbit : s.ctrl.getLsbD bitRxen = false := hrx
    simp [-BitVec.getLsbD_eq_getElem, receiveRecord, receiveOperation, decodeRecord, hrx, hbit]
  | true => simp [receiveRecord, receiveOperation, decodeRecord, hrx]

theorem step_receive {s : State} {rest : List Event} {frame : Frame} (h : s.inputs = .receive frame :: rest) :
    step s = exec (receiveOperation frame { s with inputs := rest }) { s with inputs := rest } :=
  step_eq_exec h rfl (decodeRecord_receiveRecord frame _)

theorem step_canReceive {s : State} {rest : List Event} (h : s.inputs = .canReceive :: rest) :
    step s = exec .rxCanReceive { s with inputs := rest } :=
  step_eq_exec h rfl rfl

/-- Settles O9: a ctrl store runs `transmitOperation` and a `receive` runs `receiveOperation`, each decided by the ctrl bit
and then by word0 bit 11. -/
theorem engineOutcomesAreSelectedByCtrlThenWord0 : Obligations.EngineOutcomesAreSelectedByCtrlThenWord0 := by
  intro s rest frame size value
  refine ⟨?_, fun h => ?_, step_canReceive⟩
  · rw [exec_storeCtrl]
    exact ⟨fun htx => congrArg (exec · _) (transmitOperation_off htx),
      fun htx hen => congrArg (exec · _) (transmitOperation_idle htx hen),
      fun htx hen => congrArg (exec · _) (transmitOperation_send htx hen)⟩
  · rw [step_receive h]
    exact ⟨fun hrx => congrArg (exec · _) (receiveOperation_off hrx),
      fun hrx hen => congrArg (exec · _) (receiveOperation_noBuf hrx hen),
      fun hrx hen => congrArg (exec · _) (receiveOperation_deliver hrx hen)⟩

end Sys2Proof.Machine
end

section
/-! PROOFS. What the stores of 40_register_file.md leave (R109, R112 to R114), and where each descriptor pointer stands
after every operation: only its own store leaves the ring page. -/

namespace Sys2Proof.Machine

/-! ## status and mdio -/

/-- Write-1-to-clear, bit by bit (R109). -/
@[simp] theorem clearStatus_getLsbD (status value : Word) (k : Nat) :
    (clearStatus status value).getLsbD k = (status.getLsbD k && !value.getLsbD k) := by
  rw [clearStatus, BitVec.getLsbD_and, BitVec.getLsbD_not]
  by_cases hk : k < 32
  · simp [hk]
  · simp [BitVec.getLsbD_of_ge status k (by omega)]

/-- Settles O19: a status store acknowledges the bits written, one by one. -/
theorem statusStoreIsWriteOneToClear : Obligations.StatusStoreIsWriteOneToClear := by
  intro size value s
  exact ⟨acknowledge s value, rfl, rfl, clearStatus_getLsbD s.status value⟩

/-- `MdioResult` (R170) with the fields and masks as numbers. -/
theorem mdioResult_eq (c : Config) (value : Word) :
    mdioResult c value =
      if (value >>> 11) &&& 0x1f ≠ 1 then (value &&& 0xffffffc0) ||| 0xffff0004
      else if (value >>> 1) &&& 1 = 0 then value &&& 0xffffffc0
      else (value &&& 0x0000ffc0) ||| ((phyTable c (value.extractLsb' 6 5)).setWidth 32 <<< 16) := by
  simp only [mdioResult, ne_eq, mdioPhyAddress_eq_one, mdioReadFlag_eq_false_iff]
  cases mdioReadFlag value <;> rfl

/-- Settles O42: an mdio store holds `MdioResult` of the value, whatever the request's kind. -/
theorem mdioStoreHoldsTheResult : Obligations.MdioStoreHoldsTheResult := by
  intro size value s
  rw [← mdioResult_eq]
  exact mdioRequest_eq value s

/-! ## The ring page -/

/-- An advance stays in the window the pointer is in (R140): bits 31:10 are kept with and without `WR`. -/
theorem advance_page (p : Word) (wrap : Bool) : advance p wrap >>> 10 = p >>> 10 := by
  have hpage : (p &&& ringPageMask) >>> 10 = p >>> 10 := by
    rw [BitVec.ushiftRight_and_distrib, show ringPageMask >>> 10 = BitVec.allOnes 32 >>> 10 by decide,
      ← BitVec.ushiftRight_and_distrib, BitVec.and_allOnes]
  have hoffset : ((p + descStride) &&& ringOffsetMask) >>> 10 = 0 := by
    rw [BitVec.ushiftRight_and_distrib]
    exact BitVec.and_zero
  cases wrap with
  | true => exact hpage
  | false =>
    calc advance p false >>> 10
      _ = (p &&& ringPageMask) >>> 10 ||| ((p + descStride) &&& ringOffsetMask) >>> 10 :=
        BitVec.ushiftRight_or_distrib ..
      _ = p >>> 10 := by rw [hpage, hoffset]; exact BitVec.or_zero

/-! ## The pointers after every operation -/

section PointerLaws

variable {i : Instr} {s t : State}

@[simp] theorem txSendState_txdesc (s : State) (d : Descriptor) :
    (txSendState s d).txdesc = advance s.txdesc (descWrap d.word0) := by
  simp [txSendState, txComplete]

@[simp] theorem txSendState_rxdesc (s : State) (d : Descriptor) : (txSendState s d).rxdesc = s.rxdesc := by
  simp [txSendState, txComplete]

@[simp] theorem rxDeliverState_rxdesc (s : State) (d : Descriptor) (frame : Frame) :
    (rxDeliverState s d frame).rxdesc = advance s.rxdesc (descWrap d.word0) := by
  simp [rxDeliverState]

@[simp] theorem rxDeliverState_txdesc (s : State) (d : Descriptor) (frame : Frame) :
    (rxDeliverState s d frame).txdesc = s.txdesc := by
  simp [rxDeliverState]

/-- txdesc after an operation that completes: a completed transmit advances it, its store replaces it, and every other
operation keeps it. -/
def txdescAfter (i : Instr) (s : State) : Word :=
  if completesTransmit i s then advance s.txdesc (descWrap (descriptorAt s.mem s.txdesc).word0)
  else
    match i with
    | .storeTxdesc _ value => newPointer value
    | _ => s.txdesc

/-- rxdesc after an operation that completes: a completed receive advances it, its store replaces it, and every other
operation keeps it. -/
def rxdescAfter (i : Instr) (s : State) : Word :=
  if completesReceive i s then advance s.rxdesc (descWrap (descriptorAt s.mem s.rxdesc).word0)
  else
    match i with
    | .storeRxdesc _ value => newPointer value
    | _ => s.rxdesc

theorem execTxIdle_pointers (h : execTxIdle s = .next t) : t.txdesc = s.txdesc ∧ t.rxdesc = s.rxdesc := by
  rcases execTxIdle_cases s with ⟨-, e⟩ | ⟨-, e⟩ <;> cases e.symm.trans h
  exact ⟨rfl, rfl⟩

theorem execTxSend_pointers (h : execTxSend s = .next t) :
    t.txdesc =
      (if descEnable (descriptorAt s.mem s.txdesc).word0 then
        advance s.txdesc (descWrap (descriptorAt s.mem s.txdesc).word0)
      else s.txdesc) ∧
    t.rxdesc = s.rxdesc := by
  rcases execTxSend_cases s with ⟨hen, -, e⟩ | ⟨hen, -, -, -, e⟩ | ⟨e, -⟩ <;> cases e.symm.trans h <;> simp [hen]

theorem transmitAfterStore_pointers (h : transmitAfterStore s = .next t) :
    t.txdesc =
      (if txEnabled s.ctrl && descEnable (descriptorAt s.mem s.txdesc).word0 then
        advance s.txdesc (descWrap (descriptorAt s.mem s.txdesc).word0)
      else s.txdesc) ∧
    t.rxdesc = s.rxdesc := by
  rcases transmitAfterStore_cases s with ⟨htx, e⟩ | ⟨htx, hen, e⟩ | ⟨htx, hen, e⟩
  · cases e.symm.trans h
    simp [htx]
  · simpa [hen] using execTxIdle_pointers (e.symm.trans h)
  · simpa [htx] using execTxSend_pointers (e.symm.trans h)

theorem execRxNoBuf_pointers {frame : Frame} (h : execRxNoBuf frame s = .next t) :
    t.txdesc = s.txdesc ∧ t.rxdesc = s.rxdesc := by
  rcases execRxNoBuf_cases frame s with ⟨-, e⟩ | ⟨-, -, e⟩ | ⟨-, -, e⟩ <;> cases e.symm.trans h <;> exact ⟨rfl, rfl⟩

theorem execRxDeliver_pointers {frame : Frame} (h : execRxDeliver frame s = .next t) :
    t.txdesc = s.txdesc ∧
    t.rxdesc =
      (if rxEnabled s.ctrl && descEnable (descriptorAt s.mem s.rxdesc).word0 then
        advance s.rxdesc (descWrap (descriptorAt s.mem s.rxdesc).word0)
      else s.rxdesc) := by
  rcases execRxDeliver_cases frame s with ⟨hrx, e⟩ | ⟨hrx, hen, -, e⟩ | ⟨hrx, hen, -, -, -, e⟩ | ⟨-, e, -⟩ <;>
    cases e.symm.trans h
  · simp [hrx]
  · simp [hen]
  · simp [hrx, hen]

theorem exec_pointers (h : exec i s = .next t) : t.txdesc = txdescAfter i s ∧ t.rxdesc = rxdescAfter i s := by
  cases i with
  | storeCtrl size value =>
    have hptr := transmitAfterStore_pointers (s := { s with ctrl := newCtrl value }) h
    rw [txEnabled_newCtrl] at hptr
    exact hptr
  | storeMdio size value =>
    cases (mdioRequest_eq value s).symm.trans h
    exact ⟨rfl, rfl⟩
  | txIdle => exact execTxIdle_pointers h
  | txSend => exact execTxSend_pointers h
  | rxNoBuf frame => exact execRxNoBuf_pointers (frame := frame) h
  | rxDeliver frame => exact execRxDeliver_pointers (frame := frame) h
  | _ => cases h; exact ⟨rfl, rfl⟩

/-- What is no store to txdesc keeps its page: it keeps the pointer or advances it. -/
theorem txdescAfter_page (hstore : ∀ size v, i ≠ .storeTxdesc size v) : txdescAfter i s >>> 10 = s.txdesc >>> 10 := by
  unfold txdescAfter
  split
  · exact advance_page ..
  · split
    · exact absurd rfl (hstore _ _)
    · rfl

/-- What is no store to rxdesc keeps its page: it keeps the pointer or advances it. -/
theorem rxdescAfter_page (hstore : ∀ size v, i ≠ .storeRxdesc size v) : rxdescAfter i s >>> 10 = s.rxdesc >>> 10 := by
  unfold rxdescAfter
  split
  · exact advance_page ..
  · split
    · exact absurd rfl (hstore _ _)
    · rfl

end PointerLaws

/-- Settles O21: txdesc after every operation is `txdescAfter`, whose page only the store moves. -/
theorem txdescStoreClearsTheLowBits : Obligations.TxdescStoreClearsTheLowBits := by
  refine ⟨fun _ _ _ => rfl, fun i s t h hstore => ?_⟩
  rw [(exec_pointers h).1]
  exact txdescAfter_page hstore

/-- Settles O22: rxdesc after every operation is `rxdescAfter`, whose page only the store moves. -/
theorem rxdescStoreClearsTheLowBits : Obligations.RxdescStoreClearsTheLowBits := by
  refine ⟨fun _ _ _ => rfl, fun i s t h hstore => ?_⟩
  rw [(exec_pointers h).2]
  exact rxdescAfter_page hstore

end Sys2Proof.Machine
end

section
/-! PROOFS. The transmit engine: `TX.OFF` (R130), what a completed transmit leaves, and that nothing else sends a frame
(R131, R141). -/

namespace Sys2Proof.Machine

/-- Settles O26: with the new `TXEN` clear a ctrl store selects `TX.OFF`, which answers the state with the new ctrl. -/
theorem transmitOffDoesNothing : Obligations.TransmitOffDoesNothing := by
  refine fun s => ⟨rfl, fun size value htxen => ?_⟩
  rw [exec_storeCtrl, transmitOperation_off ((txEnabled_newCtrl value).trans htxen)]
  rfl

/-! ## Views of the trace -/

@[simp] theorem sentOf_nil : sentOf [] = [] := rfl

@[simp] theorem sentOf_cons_send (f : Frame) (rest : List Effect) : sentOf (.send f :: rest) = f :: sentOf rest := rfl

@[simp] theorem sentOf_cons_other {e : Effect} (rest : List Effect) (h : ∀ f, e ≠ .send f) :
    sentOf (e :: rest) = sentOf rest := by
  cases e with
  | send f => exact absurd rfl (h f)
  | _ => rfl

@[simp] theorem sentOf_append (a b : List Effect) : sentOf (a ++ b) = sentOf a ++ sentOf b := List.filterMap_append

/-- An assert signal, issued or not, sends no frame (R197). -/
@[simp] theorem sentOf_irqAssert_if (c : Prop) [Decidable c] (line : Nat) :
    sentOf (if c then [.irqAssert line] else []) = [] := by
  split <;> simp

@[simp] theorem accessesOf_append (a b : List Effect) : accessesOf (a ++ b) = accessesOf a ++ accessesOf b :=
  List.filterMap_append

section TransmitLaws

variable {i : Instr} {s t : State}

/-! ## What the engines leave in the trace -/

@[simp] theorem sentOf_txSendState (s : State) (d : Descriptor) :
    sentOf (txSendState s d).trace = sentOf s.trace ++ [s.mem.readRange d.word1.toNat (txLength d.word0)] := by
  simp [txSendState, txComplete]

@[simp] theorem accessesOf_txSendState (s : State) (d : Descriptor) :
    accessesOf (txSendState s d).trace =
      accessesOf s.trace ++
        [⟨false, s.txdesc, descSize⟩, ⟨false, d.word1, txLength d.word0⟩, ⟨true, s.txdesc, 4⟩] := by
  simp [txSendState, txComplete, accessesOf]

@[simp] theorem sentOf_rxDeliverState (s : State) (d : Descriptor) (frame : Frame) :
    sentOf (rxDeliverState s d frame).trace = sentOf s.trace := by
  simp [rxDeliverState]

/-- The transmit length is the low eleven bits of word0, as a number (R134). -/
theorem txLength_eq_mod (word0 : Word) : txLength word0 = word0.toNat % 2048 := by
  rw [txLength, BitVec.toNat_and]
  exact Nat.and_two_pow_sub_one_eq_mod word0.toNat 11

/-! ## A completed transmit -/

theorem execTxSend_of_enabled (hen : descEnable (descriptorAt s.mem s.txdesc).word0 = true)
    (h : execTxSend s = .next t) : t = txSendState s (descriptorAt s.mem s.txdesc) := by
  rcases execTxSend_cases s with ⟨hoff, -, -⟩ | ⟨-, -, -, -, e⟩ | ⟨e, -⟩
  · simp [hen] at hoff
  · cases e.symm.trans h
    rfl
  · cases e.symm.trans h

theorem execTxSend_of_disabled (hen : descEnable (descriptorAt s.mem s.txdesc).word0 = false)
    (h : execTxSend s = .next t) : t = s.emit (.memRead s.txdesc descSize) := by
  rcases execTxSend_cases s with ⟨-, -, e⟩ | ⟨hon, -, -, -, -⟩ | ⟨e, -⟩
  · cases e.symm.trans h
    rfl
  · simp [hen] at hon
  · cases e.symm.trans h

/-- What completes a transmit leaves what `TX.SEND` leaves, in the state with the ctrl then in force (R131, R108). -/
theorem exec_of_completesTransmit (hc : completesTransmit i s = true) (h : exec i s = .next t) :
    t = txSendState { s with ctrl := ctrlInForce i s } (descriptorAt s.mem s.txdesc) := by
  cases i with
  | txSend => exact execTxSend_of_enabled hc h
  | storeCtrl size value =>
    obtain ⟨htxen, hen⟩ := Bool.and_eq_true_iff.1 hc
    rw [exec_storeCtrl,
      transmitOperation_send (s := { s with ctrl := newCtrl value }) ((txEnabled_newCtrl value).trans htxen) hen] at h
    exact execTxSend_of_enabled (s := { s with ctrl := newCtrl value }) hen h
  | _ => cases hc

/-! ## Nothing else sends -/

theorem sentOf_of_execTxIdle (h : execTxIdle s = .next t) : sentOf t.trace = sentOf s.trace := by
  rcases execTxIdle_cases s with ⟨-, e⟩ | ⟨-, e⟩ <;> cases e.symm.trans h
  simp

theorem sentOf_of_transmitAfterStore
    (hc : (txEnabled s.ctrl && descEnable (descriptorAt s.mem s.txdesc).word0) = false)
    (h : transmitAfterStore s = .next t) : sentOf t.trace = sentOf s.trace := by
  rcases transmitAfterStore_cases s with ⟨-, e⟩ | ⟨-, -, e⟩ | ⟨htx, hen, -⟩
  · cases e.symm.trans h
    rfl
  · exact sentOf_of_execTxIdle (e.symm.trans h)
  · simp [htx, hen] at hc

theorem sentOf_of_execRxNoBuf {frame : Frame} (h : execRxNoBuf frame s = .next t) :
    sentOf t.trace = sentOf s.trace := by
  rcases execRxNoBuf_cases frame s with ⟨-, e⟩ | ⟨-, -, e⟩ | ⟨-, -, e⟩ <;> cases e.symm.trans h <;> simp

theorem sentOf_of_execRxDeliver {frame : Frame} (h : execRxDeliver frame s = .next t) :
    sentOf t.trace = sentOf s.trace := by
  rcases execRxDeliver_cases frame s with ⟨-, e⟩ | ⟨-, -, -, e⟩ | ⟨-, -, -, -, -, e⟩ | ⟨-, e, -⟩ <;>
    cases e.symm.trans h <;> simp

/-- An operation that completes no transmit sends no frame (R141). -/
theorem sentOf_of_no_transmit (hc : completesTransmit i s = false) (h : exec i s = .next t) :
    sentOf t.trace = sentOf s.trace := by
  cases i with
  | storeCtrl size value =>
    exact sentOf_of_transmitAfterStore (s := { s with ctrl := newCtrl value })
      (by rw [txEnabled_newCtrl]; exact hc) h
  | storeMdio size value =>
    cases (mdioRequest_eq value s).symm.trans h
    rfl
  | txIdle => exact sentOf_of_execTxIdle h
  | txSend =>
    rw [execTxSend_of_disabled hc h]
    simp
  | rxNoBuf frame => exact sentOf_of_execRxNoBuf (frame := frame) h
  | rxDeliver frame => exact sentOf_of_execRxDeliver (frame := frame) h
  | _ => cases h; simp

/-- txdesc stays where no transmit completes, but for its own store. -/
theorem txdescAfter_of_no_transmit (hc : completesTransmit i s = false) (hstore : ∀ size v, i ≠ .storeTxdesc size v) :
    txdescAfter i s = s.txdesc := by
  cases i with
  | storeTxdesc size value => exact absurd rfl (hstore size value)
  | _ => simp [txdescAfter, hc]

end TransmitLaws

/-- Settles O31: what completes a transmit leaves `txSendState`, whose trace has the one frame and the three accesses;
nothing else sends, and only a txdesc store moves txdesc otherwise. -/
theorem oneDescriptorPerStore : Obligations.OneDescriptorPerStore := by
  refine fun i s t h => ⟨fun hc => ?_, fun hc => ⟨sentOf_of_no_transmit hc h, fun hstore => ?_⟩⟩
  · rw [exec_of_completesTransmit hc h, sentOf_txSendState, accessesOf_txSendState, txLength_eq_mod]
    exact ⟨⟨_, rfl⟩, rfl, txSendState_txdesc _ _⟩
  · rw [(exec_pointers h).1]
    exact txdescAfter_of_no_transmit hc hstore

end Sys2Proof.Machine
end

section
/-! PROOFS. The receive engine where it makes no access: `RX.CANRECEIVE` (R150) and `RX.OFF` (R152). -/

namespace Sys2Proof.Machine

/-- `RX.CANRECEIVE` answers `RXEN` and looks at nothing else (R150). -/
theorem exec_rxCanReceive (s : State) : exec .rxCanReceive s = .next (s.emit (.canReceiveReturn (rxEnabled s.ctrl))) :=
  rfl

/-- `RX.OFF` returns 0, whatever the frame (R152). -/
theorem exec_rxOff (frame : Frame) (s : State) : exec (.rxOff frame) s = .next (s.emit (.receiveReturn 0)) := rfl

/-- Settles O34: `RXEN` is bit 1 of ctrl, and recording the answer changes the trace only. -/
theorem canReceiveAnswersRxen : Obligations.CanReceiveAnswersRxen := exec_rxCanReceive

/-- Settles O35: recording the return of 0 changes the trace only. -/
theorem receiveOffRejects : Obligations.ReceiveOffRejects := exec_rxOff

end Sys2Proof.Machine
end

section
/-! PROOFS. The MDIO requests (R171 to R173) and the one fixed entry of the PHY table (R174). -/

namespace Sys2Proof.Machine

/-- Entry 0 is the source's own, whatever the platform gives for the others (R174). -/
theorem phyTable_zero (c : Config) : phyTable c 0 = 0x1140 := rfl

/-- `MDIO.NOPHY` holds the link-fail result (R171). -/
theorem exec_mdioNoPhy (value : Word) (s : State) :
    exec (.mdioNoPhy value) s = .next { s with mdio := mdioNoPhyResult value } := rfl

/-- `MDIO.WRITE` holds the request's echo (R172). -/
theorem exec_mdioWrite (value : Word) (s : State) :
    exec (.mdioWrite value) s = .next { s with mdio := mdioWriteResult value } := rfl

/-- `MDIO.READ` holds the addressed table entry (R173). -/
theorem exec_mdioRead (value : Word) (s : State) :
    exec (.mdioRead value) s = .next { s with mdio := mdioReadResult s.cfg value } := rfl

/-- Settles O43: each request holds its own result, whose masks are the statement's numbers. -/
theorem mdioRequestResults : Obligations.MdioRequestResults := fun value s =>
  ⟨exec_mdioNoPhy value s, exec_mdioWrite value s, exec_mdioRead value s, phyTable_zero s.cfg⟩

end Sys2Proof.Machine
end

section
/-! PROOFS. Every operation in one equation. Field by field, `nextState` is what an operation leaves where each access of R53
is admitted; where one is not, the operation is `DmaError` (R46, R190). -/

namespace Sys2Proof.Machine

/-! ## The registers after an operation that completes -/

/-- ctrl: replaced by its store (R108), restored by reset (R220). -/
def ctrlAfter (i : Instr) (s : State) : Word :=
  match i with
  | .storeCtrl _ value => newCtrl value
  | .reset => ctrlReset
  | _ => s.ctrl

/-- The high half of the MAC address: replaced by its store (R110). -/
def macHiAfter (i : Instr) (s : State) : BitVec 16 :=
  match i with
  | .storeMacHi _ value => macHiOfValue value
  | _ => s.macHi

/-- The low half of the MAC address: replaced by its store (R111). -/
def macLoAfter (i : Instr) (s : State) : Word :=
  match i with
  | .storeMacLo _ value => value
  | _ => s.macLo

/-- mdio: the result of a request (R112, R170 to R173), cleared by reset (R220). -/
def mdioAfter (i : Instr) (s : State) : Word :=
  match i with
  | .storeMdio _ value => mdioResult s.cfg value
  | .mdioNoPhy value => mdioNoPhyResult value
  | .mdioWrite value => mdioWriteResult value
  | .mdioRead value => mdioReadResult s.cfg value
  | .reset => 0
  | _ => s.mdio

/-- The operation completes a transfer whose interrupt is enabled in the ctrl then in force (R195). -/
def assertsLine (i : Instr) (s : State) : Bool :=
  (completesTransmit i s && txInterruptEnabled (ctrlInForce i s)) ||
    (completesReceive i s && rxInterruptEnabled (ctrlInForce i s))

/-! ## What an operation that completes does, in order -/

/-- The assert signal of a completion, if enabled (R197). -/
def signalEffects (enabled : Bool) (s : State) : List Effect :=
  if enabled then [.irqAssert s.cfg.irqLine] else []

/-- The effects of a transmit transaction (R131). -/
def txEffects (s : State) : List Effect :=
  let d := descriptorAt s.mem s.txdesc
  .memRead s.txdesc descSize ::
    if descEnable d.word0 then
      [.memRead d.word1 (txLength d.word0), .send (s.mem.readRange d.word1.toNat (txLength d.word0)),
        .memWrite s.txdesc (be32bytes 0)] ++ signalEffects (txInterruptEnabled s.ctrl) s
    else []

/-- The effects of a `receive` with `RXEN` set (R151). -/
def rxEffects (frame : Frame) (s : State) : List Effect :=
  let d := descriptorAt s.mem s.rxdesc
  .memRead s.rxdesc descSize ::
    if descEnable d.word0 then
      [.memWrite d.word1 frame, .memWrite s.rxdesc (be32bytes (rxLengthWord frame.length))] ++
        signalEffects (rxInterruptEnabled s.ctrl) s ++ [.receiveReturn frame.length]
    else [.receiveReturn 0]

/-- What each operation does that can be observed (R27, R56). -/
def effects (i : Instr) (s : State) : List Effect :=
  match i with
  | .loadCtrl _ => [.loadReturn s.ctrl]
  | .loadStatus _ => [.loadReturn s.status]
  | .loadMacHi _ => [.loadReturn (macHiValue s.macHi)]
  | .loadMacLo _ => [.loadReturn s.macLo]
  | .loadMdio _ => [.loadReturn s.mdio]
  | .loadTxdesc _ => [.loadReturn s.txdesc]
  | .loadRxdesc _ => [.loadReturn s.rxdesc]
  | .loadUnmapped offset _ => [.unhandledLoad offset, .loadReturn 0]
  | .storeCtrl _ value => if value.getLsbD 0 then txEffects { s with ctrl := newCtrl value } else []
  | .storeUnmapped offset _ _ => [.unhandledStore offset]
  | .txIdle => [.memRead s.txdesc descSize]
  | .txSend => txEffects s
  | .rxCanReceive => [.canReceiveReturn (rxEnabled s.ctrl)]
  | .rxOff _ => [.receiveReturn 0]
  | .rxNoBuf _ => if rxEnabled s.ctrl then [.memRead s.rxdesc descSize, .receiveReturn 0] else [.receiveReturn 0]
  | .rxDeliver frame => if rxEnabled s.ctrl then rxEffects frame s else [.receiveReturn 0]
  | _ => []

/-- A write access changes memory; no other effect does (R44). -/
def applyEffect (m : Memory) : Effect → Memory
  | .memWrite addr bytes => m.writeRange addr.toNat bytes
  | _ => m

/-! ## The state after an operation that completes -/

/-- The state after an operation that completes: memory takes the writes among the effects, in their order. -/
def nextState (i : Instr) (s : State) : State :=
  { s with
    ctrl := ctrlAfter i s
    status := statusAfter i s
    macHi := macHiAfter i s
    macLo := macLoAfter i s
    mdio := mdioAfter i s
    txdesc := txdescAfter i s
    rxdesc := rxdescAfter i s
    irq := assertsLine i s || s.irq
    mem := (effects i s).foldl applyEffect s.mem
    trace := s.trace ++ effects i s }

/-! ### Memory under effects -/

@[simp] theorem applyEffect_memWrite (m : Memory) (addr : Word) (bytes : List Byte) :
    applyEffect m (.memWrite addr bytes) = m.writeRange addr.toNat bytes := rfl

@[simp] theorem applyEffect_other (m : Memory) {e : Effect} (h : ∀ addr bytes, e ≠ .memWrite addr bytes) :
    applyEffect m e = m := by
  cases e with
  | memWrite addr bytes => exact absurd rfl (h addr bytes)
  | _ => rfl

@[simp] theorem foldl_applyEffect_signalEffects (m : Memory) (enabled : Bool) (s : State) :
    (signalEffects enabled s).foldl applyEffect m = m := by
  cases enabled <;> rfl

/-! ### The effects of the operations that make an access -/

section NextState

variable {i : Instr} {s t : State} {frame : Frame}

theorem effects_storeCtrl (size : Byte) (value : Word) (s : State) :
    effects (.storeCtrl size value) s = if value.getLsbD 0 then txEffects { s with ctrl := newCtrl value } else [] := rfl

theorem effects_txSend (s : State) : effects .txSend s = txEffects s := rfl

theorem effects_rxNoBuf (frame : Frame) (s : State) :
    effects (.rxNoBuf frame) s =
      if rxEnabled s.ctrl then [.memRead s.rxdesc descSize, .receiveReturn 0] else [.receiveReturn 0] := rfl

theorem effects_rxDeliver (frame : Frame) (s : State) :
    effects (.rxDeliver frame) s = if rxEnabled s.ctrl then rxEffects frame s else [.receiveReturn 0] := rfl

theorem txEffects_of_disabled (hen : descEnable (descriptorAt s.mem s.txdesc).word0 = false) :
    txEffects s = [.memRead s.txdesc descSize] := by
  simp [txEffects, hen]

theorem rxEffects_of_disabled (hen : descEnable (descriptorAt s.mem s.rxdesc).word0 = false) :
    rxEffects frame s = [.memRead s.rxdesc descSize, .receiveReturn 0] := by
  simp [rxEffects, hen]

theorem txEffects_of_enabled (hen : descEnable (descriptorAt s.mem s.txdesc).word0 = true) :
    txEffects s =
      [.memRead s.txdesc descSize,
        .memRead (descriptorAt s.mem s.txdesc).word1 (txLength (descriptorAt s.mem s.txdesc).word0),
        .send (s.mem.readRange (descriptorAt s.mem s.txdesc).word1.toNat (txLength (descriptorAt s.mem s.txdesc).word0)),
        .memWrite s.txdesc (be32bytes 0)] ++ signalEffects (txInterruptEnabled s.ctrl) s := by
  simp [txEffects, hen]

theorem rxEffects_of_enabled (hen : descEnable (descriptorAt s.mem s.rxdesc).word0 = true) :
    rxEffects frame s =
      [.memRead s.rxdesc descSize, .memWrite (descriptorAt s.mem s.rxdesc).word1 frame,
        .memWrite s.rxdesc (be32bytes (rxLengthWord frame.length))] ++
        signalEffects (rxInterruptEnabled s.ctrl) s ++ [.receiveReturn frame.length] := by
  simp [rxEffects, hen]

/-! ### The engines' next states -/

/-- What a completed transmit leaves, field by field (R131). -/
theorem txSendState_eq (s : State) (d : Descriptor) :
    txSendState s d =
      { s with
        mem := s.mem.writeRange s.txdesc.toNat (be32bytes 0)
        txdesc := advance s.txdesc (descWrap d.word0)
        status := setFlag s.status .transmit
        irq := s.irq || txInterruptEnabled s.ctrl
        trace := s.trace ++
          [.memRead s.txdesc descSize, .memRead d.word1 (txLength d.word0),
            .send (s.mem.readRange d.word1.toNat (txLength d.word0)), .memWrite s.txdesc (be32bytes 0)] ++
          (if txInterruptEnabled s.ctrl then [.irqAssert s.cfg.irqLine] else []) } := by
  rw [txSendState, txComplete, signalCompletion_eq]
  simp only [State.emit, sendFrame, List.append_assoc, List.cons_append, List.nil_append]
  rfl

/-- What a completed receive leaves, field by field (R151). -/
theorem rxDeliverState_eq (s : State) (d : Descriptor) (frame : Frame) :
    rxDeliverState s d frame =
      { s with
        mem := (s.mem.writeRange d.word1.toNat frame).writeRange s.rxdesc.toNat
          (be32bytes (rxLengthWord frame.length))
        rxdesc := advance s.rxdesc (descWrap d.word0)
        status := setFlag s.status .receive
        irq := s.irq || rxInterruptEnabled s.ctrl
        trace := s.trace ++
          [.memRead s.rxdesc descSize, .memWrite d.word1 frame,
            .memWrite s.rxdesc (be32bytes (rxLengthWord frame.length))] ++
          (if rxInterruptEnabled s.ctrl then [.irqAssert s.cfg.irqLine] else []) } := by
  rw [rxDeliverState, signalCompletion_eq]
  simp only [State.emit, List.append_assoc, List.cons_append, List.nil_append]
  rfl

theorem nextState_txSend_of_disabled (hen : descEnable (descriptorAt s.mem s.txdesc).word0 = false) :
    nextState .txSend s = s.emit (.memRead s.txdesc descSize) := by
  have hc : completesTransmit .txSend s = false := hen
  have hl : assertsLine .txSend s = false := by simp [assertsLine, hc, completesReceive]
  simp only [nextState, effects_txSend, txEffects_of_disabled hen, hl, statusAfter, txdescAfter, hc, State.emit,
    Bool.false_or]
  rfl

theorem nextState_txSend_of_enabled (hen : descEnable (descriptorAt s.mem s.txdesc).word0 = true) :
    nextState .txSend s = txSendState s (descriptorAt s.mem s.txdesc) := by
  have hc : completesTransmit .txSend s = true := hen
  have hl : assertsLine .txSend s = txInterruptEnabled s.ctrl := by
    simp [assertsLine, hc, completesReceive, ctrlInForce]
  have hmem : (effects .txSend s).foldl applyEffect s.mem = s.mem.writeRange s.txdesc.toNat (be32bytes 0) := by
    simp [effects_txSend, txEffects_of_enabled hen]
  rw [txSendState_eq, nextState, hmem]
  simp only [effects_txSend, txEffects_of_enabled hen, hl, statusAfter_of_completesTransmit hc, txdescAfter, hc,
    Bool.or_comm, List.append_assoc]
  rfl

theorem nextState_rxDeliver_of_off (hrx : rxEnabled s.ctrl = false) :
    nextState (.rxDeliver frame) s = s.emit (.receiveReturn 0) := by
  have hc : completesReceive (.rxDeliver frame) s = false := Bool.and_eq_false_imp.2 fun h => by
    cases hrx.symm.trans h
  have hl : assertsLine (.rxDeliver frame) s = false := by simp [assertsLine, hc, completesTransmit]
  simp only [nextState, effects_rxDeliver, hrx, hl, statusAfter, rxdescAfter, hc, State.emit, Bool.false_or]
  rfl

theorem nextState_rxDeliver_of_disabled (hrx : rxEnabled s.ctrl = true)
    (hen : descEnable (descriptorAt s.mem s.rxdesc).word0 = false) :
    nextState (.rxDeliver frame) s = (s.emit (.memRead s.rxdesc descSize)).emit (.receiveReturn 0) := by
  have hc : completesReceive (.rxDeliver frame) s = false := Bool.and_eq_false_imp.2 fun _ => hen
  have hl : assertsLine (.rxDeliver frame) s = false := by simp [assertsLine, hc, completesTransmit]
  simp only [nextState, effects_rxDeliver, hrx, rxEffects_of_disabled hen, hl, statusAfter, rxdescAfter, hc,
    State.emit, Bool.false_or, List.append_assoc]
  rfl

theorem nextState_rxDeliver_of_enabled (hrx : rxEnabled s.ctrl = true)
    (hen : descEnable (descriptorAt s.mem s.rxdesc).word0 = true) :
    nextState (.rxDeliver frame) s =
      (rxDeliverState s (descriptorAt s.mem s.rxdesc) frame).emit (.receiveReturn frame.length) := by
  have hc : completesReceive (.rxDeliver frame) s = true := Bool.and_eq_true_iff.2 ⟨hrx, hen⟩
  have hl : assertsLine (.rxDeliver frame) s = rxInterruptEnabled s.ctrl := by
    simp [assertsLine, hc, completesTransmit, ctrlInForce]
  have hmem : (effects (.rxDeliver frame) s).foldl applyEffect s.mem =
      (s.mem.writeRange (descriptorAt s.mem s.rxdesc).word1.toNat frame).writeRange s.rxdesc.toNat
        (be32bytes (rxLengthWord frame.length)) := by
    simp [effects_rxDeliver, hrx, rxEffects_of_enabled hen]
  rw [rxDeliverState_eq, nextState, hmem]
  simp only [effects_rxDeliver, hrx, rxEffects_of_enabled hen, hl, statusAfter_of_completesReceive hc, rxdescAfter, hc,
    State.emit, Bool.or_comm, List.append_assoc]
  rfl

/-! ### Which accesses have to be admitted -/

theorem dmaAdmitted_txSend_iff :
    dmaAdmitted .txSend s ↔ admits s.cfg s.txdesc descSize = true ∧
      (descEnable (descriptorAt s.mem s.txdesc).word0 = true →
        admits s.cfg (descriptorAt s.mem s.txdesc).word1 (txLength (descriptorAt s.mem s.txdesc).word0) = true ∧
          admits s.cfg s.txdesc 4 = true) := by
  have hacc : dmaAccesses .txSend s = ⟨false, s.txdesc, descSize⟩ ::
      if descEnable (descriptorAt s.mem s.txdesc).word0 then
        [⟨false, (descriptorAt s.mem s.txdesc).word1, txLength (descriptorAt s.mem s.txdesc).word0⟩, ⟨true, s.txdesc, 4⟩]
      else [] := rfl
  cases hen : descEnable (descriptorAt s.mem s.txdesc).word0 <;> simp [dmaAdmitted, hacc, hen]

theorem dmaAdmitted_rxDeliver_iff :
    dmaAdmitted (.rxDeliver frame) s ↔ (rxEnabled s.ctrl = true → admits s.cfg s.rxdesc descSize = true ∧
      (descEnable (descriptorAt s.mem s.rxdesc).word0 = true →
        admits s.cfg (descriptorAt s.mem s.rxdesc).word1 frame.length = true ∧ admits s.cfg s.rxdesc 4 = true)) := by
  have hacc : dmaAccesses (.rxDeliver frame) s =
      if rxEnabled s.ctrl then ⟨false, s.rxdesc, descSize⟩ ::
        if descEnable (descriptorAt s.mem s.rxdesc).word0 then
          [⟨true, (descriptorAt s.mem s.rxdesc).word1, frame.length⟩, ⟨true, s.rxdesc, 4⟩]
        else []
      else [] := rfl
  cases hrx : rxEnabled s.ctrl <;> cases hen : descEnable (descriptorAt s.mem s.rxdesc).word0 <;>
    simp [dmaAdmitted, hacc, hrx, hen]

theorem dmaAdmitted_txIdle_iff : dmaAdmitted .txIdle s ↔ admits s.cfg s.txdesc descSize = true := by
  have hacc : dmaAccesses .txIdle s = [⟨false, s.txdesc, descSize⟩] := rfl
  simp [dmaAdmitted, hacc]

theorem dmaAdmitted_rxNoBuf_iff :
    dmaAdmitted (.rxNoBuf frame) s ↔ (rxEnabled s.ctrl = true → admits s.cfg s.rxdesc descSize = true) := by
  have hacc : dmaAccesses (.rxNoBuf frame) s =
      if rxEnabled s.ctrl then [⟨false, s.rxdesc, descSize⟩] else [] := rfl
  cases hrx : rxEnabled s.ctrl <;> simp [dmaAdmitted, hacc, hrx]

/-! ### The equation -/

/-- The operation completes in `nextState` where its accesses are admitted, and is `DmaError` otherwise. -/
def Determined (i : Instr) (s : State) : Prop :=
  exec i s = if dmaAdmitted i s then .next (nextState i s) else .fault .dmaError

theorem determined_of_next (hadm : dmaAdmitted i s) (h : exec i s = .next (nextState i s)) : Determined i s := by
  rw [Determined, if_pos hadm, h]

theorem determined_of_fault (hadm : ¬ dmaAdmitted i s) (h : exec i s = .fault .dmaError) : Determined i s := by
  rw [Determined, if_neg hadm, h]

theorem determined_txIdle (s : State) : Determined .txIdle s := by
  rcases execTxIdle_cases s with ⟨hd, e⟩ | ⟨hd, e⟩
  · refine determined_of_next (dmaAdmitted_txIdle_iff.2 hd) (e.trans ?_)
    simp only [nextState, assertsLine, completesTransmit, completesReceive, Bool.false_and, Bool.false_or]
    rfl
  · exact determined_of_fault (fun h => by simp [dmaAdmitted_txIdle_iff.1 h] at hd) e

theorem determined_txSend (s : State) : Determined .txSend s := by
  rcases execTxSend_cases s with ⟨hen, hd, e⟩ | ⟨hen, hd, hbuf, hword0, e⟩ | ⟨e, hbad⟩
  · exact determined_of_next (dmaAdmitted_txSend_iff.2 ⟨hd, by simp [hen]⟩)
      (e.trans (congrArg _ (nextState_txSend_of_disabled hen).symm))
  · exact determined_of_next (dmaAdmitted_txSend_iff.2 ⟨hd, fun _ => ⟨hbuf, hword0⟩⟩)
      (e.trans (congrArg _ (nextState_txSend_of_enabled hen).symm))
  · refine determined_of_fault (fun h => ?_) e
    obtain ⟨hd, hrest⟩ := dmaAdmitted_txSend_iff.1 h
    simp_all

theorem determined_rxNoBuf (frame : Frame) (s : State) : Determined (.rxNoBuf frame) s := by
  have hl : assertsLine (.rxNoBuf frame) s = false := rfl
  rcases execRxNoBuf_cases frame s with ⟨hrx, e⟩ | ⟨hrx, hd, e⟩ | ⟨hrx, hd, e⟩
  · refine determined_of_next (dmaAdmitted_rxNoBuf_iff.2 (by simp [hrx])) (e.trans ?_)
    simp only [nextState, effects_rxNoBuf, hl, hrx, Bool.false_or]
    rfl
  · refine determined_of_next (dmaAdmitted_rxNoBuf_iff.2 fun _ => hd) (e.trans ?_)
    simp only [nextState, effects_rxNoBuf, hl, hrx, Bool.false_or, State.emit, List.append_assoc]
    rfl
  · exact determined_of_fault (fun h => by simp [dmaAdmitted_rxNoBuf_iff.1 h hrx] at hd) e

theorem determined_rxDeliver (frame : Frame) (s : State) : Determined (.rxDeliver frame) s := by
  rcases execRxDeliver_cases frame s with ⟨hrx, e⟩ | ⟨hrx, hen, hd, e⟩ | ⟨hrx, hen, hd, hbuf, hword0, e⟩ | ⟨hrx, e, hbad⟩
  · exact determined_of_next (dmaAdmitted_rxDeliver_iff.2 (by simp [hrx]))
      (e.trans (congrArg _ (nextState_rxDeliver_of_off hrx).symm))
  · exact determined_of_next (dmaAdmitted_rxDeliver_iff.2 fun _ => ⟨hd, by simp [hen]⟩)
      (e.trans (congrArg _ (nextState_rxDeliver_of_disabled hrx hen).symm))
  · exact determined_of_next (dmaAdmitted_rxDeliver_iff.2 fun _ => ⟨hd, fun _ => ⟨hbuf, hword0⟩⟩)
      (e.trans (congrArg _ (nextState_rxDeliver_of_enabled hrx hen).symm))
  · refine determined_of_fault (fun h => ?_) e
    obtain ⟨hd, hrest⟩ := dmaAdmitted_rxDeliver_iff.1 h hrx
    simp_all

theorem dmaAdmitted_of_no_access (hacc : dmaAccesses i s = []) : dmaAdmitted i s := by
  simp [dmaAdmitted, hacc]

/-! ### A ctrl store -/

theorem dmaAccesses_storeCtrl (size : Byte) (value : Word) (s : State) :
    dmaAccesses (.storeCtrl size value) s = if value.getLsbD 0 then dmaAccesses .txSend s else [] := rfl

theorem completesTransmit_storeCtrl (size : Byte) (value : Word) (s : State) :
    completesTransmit (.storeCtrl size value) s = (value.getLsbD 0 && completesTransmit .txSend s) := rfl

/-- With `TXEN` set the whole transaction runs, which stops by itself at a disabled descriptor (R131, R132). -/
theorem transmitAfterStore_of_txEnabled (htx : txEnabled s.ctrl = true) : transmitAfterStore s = exec .txSend s := by
  rcases transmitAfterStore_cases s with ⟨hoff, -⟩ | ⟨-, hen, e⟩ | ⟨-, -, e⟩
  · simp [htx] at hoff
  · rw [e]
    change execTxIdle s = execTxSend s
    rcases execTxIdle_cases s with ⟨hd, e⟩ | ⟨hd, e⟩ <;> rcases execTxSend_cases s with h | h | h <;> simp_all
  · exact e

theorem exec_storeCtrl_of_set (size : Byte) {value : Word} (htx : value.getLsbD 0 = true) (s : State) :
    exec (.storeCtrl size value) s = exec .txSend { s with ctrl := newCtrl value } :=
  transmitAfterStore_of_txEnabled ((txEnabled_newCtrl value).trans htx)

theorem nextState_storeCtrl_of_set (size : Byte) {value : Word} (htx : value.getLsbD 0 = true) (s : State) :
    nextState (.storeCtrl size value) s = nextState .txSend { s with ctrl := newCtrl value } := by
  have hc : completesTransmit (.storeCtrl size value) s = completesTransmit .txSend { s with ctrl := newCtrl value } := by
    rw [completesTransmit_storeCtrl, htx]
    rfl
  simp only [nextState, effects_storeCtrl, effects_txSend, htx, statusAfter, txdescAfter, assertsLine, hc]
  rfl

theorem nextState_storeCtrl_of_clear (size : Byte) {value : Word} (htx : value.getLsbD 0 = false) (s : State) :
    nextState (.storeCtrl size value) s = { s with ctrl := newCtrl value } := by
  have hc : completesTransmit (.storeCtrl size value) s = false := by
    rw [completesTransmit_storeCtrl, htx, Bool.false_and]
  have hl : assertsLine (.storeCtrl size value) s = false := by simp [assertsLine, hc, completesReceive]
  simp only [nextState, effects_storeCtrl, htx, statusAfter, txdescAfter, hc, hl, Bool.false_or]
  simp only [Bool.false_eq_true, if_false, List.append_nil]
  rfl

theorem determined_storeCtrl (size : Byte) (value : Word) (s : State) : Determined (.storeCtrl size value) s := by
  cases htx : value.getLsbD 0 with
  | false =>
    refine determined_of_next (dmaAdmitted_of_no_access ?_) ?_
    · rw [dmaAccesses_storeCtrl, htx]
      rfl
    · rw [nextState_storeCtrl_of_clear size htx]
      exact (transmitOffDoesNothing s).2 size value htx
  | true =>
    have hacc : dmaAccesses (.storeCtrl size value) s = dmaAccesses .txSend { s with ctrl := newCtrl value } := by
      simp only [dmaAccesses_storeCtrl, htx, if_true]
      rfl
    rw [Determined, exec_storeCtrl_of_set size htx, nextState_storeCtrl_of_set size htx]
    simp only [dmaAdmitted, hacc]
    exact determined_txSend _

/-! ### The other operations make no access -/

theorem determined_of_silent (hacc : dmaAccesses i s = []) (heff : effects i s = [])
    (h : exec i s = .next { nextState i s with trace := s.trace }) : Determined i s := by
  refine determined_of_next (dmaAdmitted_of_no_access hacc) (h.trans ?_)
  simp [nextState, heff]

theorem exec_loadUnmapped (offset : Word) (size : Byte) (s : State) :
    exec (.loadUnmapped offset size) s =
      .next { s with trace := s.trace ++ [.unhandledLoad offset, .loadReturn 0] } := by
  change Host.Outcome.next ((s.emit (.unhandledLoad offset)).emit (.loadReturn 0)) = _
  simp [State.emit]

/-- What every operation does, in every state. -/
theorem determined (i : Instr) (s : State) : Determined i s := by
  cases i with
  | storeCtrl size value => exact determined_storeCtrl size value s
  | txIdle => exact determined_txIdle s
  | txSend => exact determined_txSend s
  | rxNoBuf frame => exact determined_rxNoBuf frame s
  | rxDeliver frame => exact determined_rxDeliver frame s
  | storeMdio size value => exact determined_of_silent rfl rfl (mdioRequest_eq value s)
  | storeStatus | storeMacHi | storeMacLo | storeTxdesc | storeRxdesc | txOff | mdioNoPhy | mdioWrite | mdioRead | reset =>
    exact determined_of_silent rfl rfl rfl
  | loadUnmapped offset size => exact determined_of_next (dmaAdmitted_of_no_access rfl) (exec_loadUnmapped offset size s)
  | _ => exact determined_of_next (dmaAdmitted_of_no_access rfl) rfl

theorem exec_eq_next (h : dmaAdmitted i s) : exec i s = .next (nextState i s) :=
  (determined i s).trans (if_pos h)

theorem exec_eq_dmaError (h : ¬ dmaAdmitted i s) : exec i s = .fault .dmaError :=
  (determined i s).trans (if_neg h)

/-- An operation completes in `nextState` only, and only where its accesses are admitted. -/
theorem exec_eq_next_iff : exec i s = .next t ↔ dmaAdmitted i s ∧ t = nextState i s := by
  by_cases h : dmaAdmitted i s
  · rw [exec_eq_next h, Host.Outcome.next.injEq, eq_comm, and_iff_right h]
  · simp [exec_eq_dmaError h, h]

theorem nextState_of_exec (h : exec i s = .next t) : nextState i s = t := (exec_eq_next_iff.1 h).2.symm

end NextState

end Sys2Proof.Machine
end

section
/-! PROOFS. The encoding: a record's bytes are read back (log 10), and the decoder and the encoder agree (R72, R81, R82). -/

namespace Sys2Proof

open Sys2Proof.Machine

/-! ## Records and their bytes -/

theorem spaceOfTag_tagOfSpace (space : Space) : spaceOfTag (tagOfSpace space) = .ok space := by
  cases space <;> decide

@[simp] theorem bytesOfRecord_length (r : OpRecord) : (bytesOfRecord r).length = 16 + r.frame.length := by
  simp [bytesOfRecord, leBytes]
  omega

/-- A record whose frame length fits its four bytes is read back from its bytes. -/
theorem recordOfBytes_bytesOfRecord {r : OpRecord} (h : frameFits r.frame = true) :
    recordOfBytes (bytesOfRecord r) = .ok r := by
  have hlen : r.frame.length < 2 ^ 32 := of_decide_eq_true h
  simp only [bytesOfRecord, leBytes, List.cons_append, List.nil_append, recordOfBytes, spaceOfTag_tagOfSpace,
    leWord_leBytes, and_self, if_true, BitVec.toNat_ofNat, Nat.mod_eq_of_lt hlen]

/-- What reads as a record has its length: 16 bytes and as many frame bytes as four bytes can say. -/
theorem length_of_recordOfBytes {bytes : List Byte} {r : OpRecord} (h : recordOfBytes bytes = .ok r) :
    bytes.length = 16 + r.frame.length ∧ frameFits r.frame = true := by
  unfold recordOfBytes at h
  split at h
  · split at h
    · cases h
    · split at h
      · split at h
        · next hlen =>
          cases h
          exact ⟨by simp only [List.length_cons]; omega, decide_eq_true (hlen ▸ BitVec.isLt _)⟩
        · cases h
      · cases h
  · cases h

/-! ## Well-formed operations and their records -/

theorem frameFits_nil : frameFits [] = true := rfl

theorem frameFits_encodeRecord {i : Instr} (h : i.wf = true) : frameFits (encodeRecord i).frame = true := by
  cases i with
  | rxOff | rxNoBuf | rxDeliver => exact h
  | _ => exact frameFits_nil

theorem decodeRecord_encodeRecord (i : Instr) : i.wf = true → decodeRecord (encodeRecord i) = .ok i := by
  open Laws.RecordRoundTrip in
  cases i with
  | loadCtrl size => exact loadCtrl size
  | loadStatus size => exact loadStatus size
  | loadMacHi size => exact loadMacHi size
  | loadMacLo size => exact loadMacLo size
  | loadMdio size => exact loadMdio size
  | loadTxdesc size => exact loadTxdesc size
  | loadRxdesc size => exact loadRxdesc size
  | loadUnmapped offset size => exact loadUnmapped offset size
  | storeCtrl size value => exact storeCtrl size value
  | storeStatus size value => exact storeStatus size value
  | storeMacHi size value => exact storeMacHi size value
  | storeMacLo size value => exact storeMacLo size value
  | storeMdio size value => exact storeMdio size value
  | storeTxdesc size value => exact storeTxdesc size value
  | storeRxdesc size value => exact storeRxdesc size value
  | storeUnmapped offset size value => exact storeUnmapped offset size value
  | txOff => exact txOff
  | txIdle => exact txIdle
  | txSend => exact txSend
  | rxCanReceive => exact rxCanReceive
  | rxOff frame => exact rxOff frame
  | rxNoBuf frame => exact rxNoBuf frame
  | rxDeliver frame => exact rxDeliver frame
  | mdioNoPhy value => exact mdioNoPhy value
  | mdioWrite value => exact mdioWrite value
  | mdioRead value => exact mdioRead value
  | reset => exact reset

/-- Settles O1: the record of a well-formed operation is read back from its bytes and decodes to the operation. -/
theorem decodeEncodeAgree : Obligations.DecodeEncodeAgree := by
  intro i hwf
  rw [decode, encode, recordOfBytes_bytesOfRecord (frameFits_encodeRecord hwf)]
  exact decodeRecord_encodeRecord i hwf

/-! ## What decodes -/

/-- An offset is unmapped, or one of the seven (R52). -/
theorem offset_cases (offset : Word) :
    offsetUnmapped offset = true ∨ offset = offCtrl ∨ offset = offStatus ∨ offset = offMacHi ∨ offset = offMacLo ∨
      offset = offMdio ∨ offset = offTxdesc ∨ offset = offRxdesc := by
  by_cases h : offset ∈ regOffsets
  · exact .inr (by simpa only [regOffsets, List.mem_cons, List.not_mem_nil, or_false] using h)
  · exact .inl ((offsetUnmapped_iff offset).2 h)

theorem decodeBusLoad_unmapped {offset : Word} (size : Byte) (h : offsetUnmapped offset = true) :
    decodeBusLoad offset size = .loadUnmapped offset size := by
  obtain ⟨h0, h1, h2, h3, h4, h5, h6⟩ := Laws.RecordRoundTrip.unmapped_ne h
  simp only [decodeBusLoad, h0, h1, h2, h3, h4, h5, h6, if_false]

theorem decodeBusStore_unmapped {offset : Word} (size : Byte) (value : Word) (h : offsetUnmapped offset = true) :
    decodeBusStore offset size value = .storeUnmapped offset size value := by
  obtain ⟨h0, h1, h2, h3, h4, h5, h6⟩ := Laws.RecordRoundTrip.unmapped_ne h
  simp only [decodeBusStore, h0, h1, h2, h3, h4, h5, h6, if_false]

/-- The operation is well formed if the frame that travels with it is not too long, and it carries that frame. -/
def CarriesFrame (i : Instr) (frame : Frame) : Prop :=
  (frameFits frame = true → i.wf = true) ∧ (encodeRecord i).frame = frame

theorem carriesFrame_decodeBusLoad (offset : Word) (size : Byte) : CarriesFrame (decodeBusLoad offset size) [] := by
  rcases offset_cases offset with h | rfl | rfl | rfl | rfl | rfl | rfl | rfl
  · rw [decodeBusLoad_unmapped size h]
    exact ⟨fun _ => h, rfl⟩
  all_goals exact ⟨fun _ => rfl, rfl⟩

theorem carriesFrame_decodeBusStore (offset : Word) (size : Byte) (value : Word) :
    CarriesFrame (decodeBusStore offset size value) [] := by
  rcases offset_cases offset with h | rfl | rfl | rfl | rfl | rfl | rfl | rfl
  · rw [decodeBusStore_unmapped size value h]
    exact ⟨fun _ => h, rfl⟩
  all_goals exact ⟨fun _ => rfl, rfl⟩

theorem carriesFrame_decodeMdio (value : Word) : CarriesFrame (decodeMdio value) [] := by
  obtain ⟨hwrite, hread⟩ := Laws.RecordRoundTrip.mdio_match value
  unfold decodeMdio
  split_ifs with hw hr
  · exact ⟨fun _ => by simp [Instr.wf, hwrite.1 hw], rfl⟩
  · exact ⟨fun _ => by simp [Instr.wf, hread.1 hr], rfl⟩
  · refine ⟨fun _ => ?_, rfl⟩
    rw [hwrite] at hw
    rw [hread] at hr
    cases hflag : mdioReadFlag value <;> simp_all [Instr.wf]

theorem ok_of_guard {guard : Prop} [Decidable guard] {answer : Except DecodeError Instr} {e : DecodeError} {i : Instr}
    (h : (if guard then answer else .error e) = .ok i) : guard ∧ answer = .ok i := by
  split_ifs at h with hguard
  exact ⟨hguard, h⟩

theorem ok_of_noRow {bit : Bool} {j i : Instr}
    (h : (if bit then .error .noRow else .ok j : Except DecodeError Instr) = .ok i) : j = i := by
  cases bit <;> cases h
  rfl

/-- What the decoder answers on a record carries the record's frame (R72, R81, R82). -/
theorem carriesFrame_of_decodeRecord {r : OpRecord} {i : Instr} (hdec : decodeRecord r = .ok i) :
    CarriesFrame i r.frame := by
  obtain ⟨space, x, size, value, frame⟩ := r
  cases space with
  | busLoadOffset =>
    obtain ⟨⟨-, rfl⟩, h⟩ := ok_of_guard hdec
    cases h
    exact carriesFrame_decodeBusLoad x size
  | busStoreOffset =>
    obtain ⟨rfl, h⟩ := ok_of_guard hdec
    cases h
    exact carriesFrame_decodeBusStore x size value
  | mdioStoreValue =>
    obtain ⟨⟨-, -, rfl⟩, h⟩ := ok_of_guard hdec
    cases h
    exact carriesFrame_decodeMdio x
  | ctrlAfterStore =>
    obtain ⟨⟨-, -, rfl⟩, h⟩ := ok_of_guard hdec
    cases ok_of_noRow h
    exact ⟨fun _ => rfl, rfl⟩
  | txDescriptorWord0 =>
    obtain ⟨⟨-, -, rfl⟩, h⟩ := ok_of_guard hdec
    cases h
    cases descEnable x <;> exact ⟨fun _ => rfl, rfl⟩
  | ctrlAtReceive =>
    cases ok_of_noRow (ok_of_guard hdec).2
    exact ⟨id, rfl⟩
  | rxDescriptorWord0 =>
    cases (ok_of_guard hdec).2
    cases descEnable x <;> exact ⟨id, rfl⟩
  | eventCanReceive | eventReset =>
    obtain ⟨⟨-, -, -, rfl⟩, h⟩ := ok_of_guard hdec
    cases h
    exact ⟨fun _ => rfl, rfl⟩

/-- Settles O2: bytes that decode are a record with the frame they say, the operation carries that frame, so its own record
has as many bytes and decodes to it. -/
theorem decodedOperationsAreWellFormed : Obligations.DecodedOperationsAreWellFormed := by
  intro bytes i h
  unfold decode at h
  split at h
  · cases h
  · next r hr =>
    obtain ⟨hlen, hfits⟩ := length_of_recordOfBytes hr
    obtain ⟨hwf, hframe⟩ := carriesFrame_of_decodeRecord h
    exact ⟨hwf hfits, by rw [encode, bytesOfRecord_length, hframe, hlen], decodeEncodeAgree i (hwf hfits)⟩

/-! ## Offsets, and the table's words -/

/-- Settles O3: six records written out. -/
theorem wordsOfTheTableDecode : Obligations.WordsOfTheTableDecode := by
  unfold Obligations.WordsOfTheTableDecode
  decide

/-- Settles O4: at a mapped offset the comparison selects the row, at any other it falls through to the unmapped one. -/
theorem offsetSelectsTheBusOperation : Obligations.OffsetSelectsTheBusOperation := by
  refine fun size value => ⟨rfl, rfl, rfl, rfl, rfl, rfl, rfl, rfl, rfl, rfl, rfl, rfl, rfl, rfl, fun offset h => ?_⟩
  have hunmapped := (offsetUnmapped_iff offset).2 h
  exact ⟨congrArg Except.ok (decodeBusLoad_unmapped size hunmapped),
    congrArg Except.ok (decodeBusStore_unmapped size value hunmapped)⟩

end Sys2Proof
end

section
/-! PROOFS. Faults, completion and accesses of every operation (R46, R53, R56, R190), and the frame of memory (R44). -/

namespace Sys2Proof.Machine

section Accesses

variable {i : Instr} {s t : State} {frame : Frame}

theorem not_dmaAdmitted_iff : ¬ dmaAdmitted i s ↔ ∃ a ∈ dmaAccesses i s, admits s.cfg a.addr a.n = false := by
  simp [dmaAdmitted]

theorem exec_eq_dmaError_iff : exec i s = .fault .dmaError ↔ ¬ dmaAdmitted i s := by
  refine ⟨fun h hadm => ?_, exec_eq_dmaError⟩
  rw [exec_eq_next hadm] at h
  cases h

theorem exec_ne_refused (i : Instr) (s : State) (r : Refusal) : exec i s ≠ .refused r := by
  by_cases h : dmaAdmitted i s
  · simp [exec_eq_next h]
  · simp [exec_eq_dmaError h]

/-! ## The accesses among the effects -/

@[simp] theorem accessesOf_nil : accessesOf [] = [] := rfl

@[simp] theorem accessesOf_cons_memRead (addr : Word) (n : Nat) (rest : List Effect) :
    accessesOf (.memRead addr n :: rest) = ⟨false, addr, n⟩ :: accessesOf rest := rfl

@[simp] theorem accessesOf_cons_memWrite (addr : Word) (bytes : List Byte) (rest : List Effect) :
    accessesOf (.memWrite addr bytes :: rest) = ⟨true, addr, bytes.length⟩ :: accessesOf rest := rfl

@[simp] theorem accessesOf_cons_other {e : Effect} (rest : List Effect) (hread : ∀ addr n, e ≠ .memRead addr n)
    (hwrite : ∀ addr bytes, e ≠ .memWrite addr bytes) : accessesOf (e :: rest) = accessesOf rest := by
  cases e with
  | memRead addr n => exact absurd rfl (hread addr n)
  | memWrite addr bytes => exact absurd rfl (hwrite addr bytes)
  | _ => rfl

@[simp] theorem accessesOf_signalEffects (enabled : Bool) (s : State) : accessesOf (signalEffects enabled s) = [] := by
  cases enabled <;> rfl

theorem accessesOf_txEffects (s : State) : accessesOf (txEffects s) = txAccesses s := by
  have hacc : txAccesses s = ⟨false, s.txdesc, descSize⟩ ::
      if descEnable (descriptorAt s.mem s.txdesc).word0 then
        [⟨false, (descriptorAt s.mem s.txdesc).word1, txLength (descriptorAt s.mem s.txdesc).word0⟩, ⟨true, s.txdesc, 4⟩]
      else [] := rfl
  cases hen : descEnable (descriptorAt s.mem s.txdesc).word0 <;> simp [txEffects, hacc, hen]

theorem accessesOf_rxEffects (frame : Frame) (s : State) : accessesOf (rxEffects frame s) = rxAccesses frame s := by
  have hacc : rxAccesses frame s = ⟨false, s.rxdesc, descSize⟩ ::
      if descEnable (descriptorAt s.mem s.rxdesc).word0 then
        [⟨true, (descriptorAt s.mem s.rxdesc).word1, frame.length⟩, ⟨true, s.rxdesc, 4⟩]
      else [] := rfl
  cases hen : descEnable (descriptorAt s.mem s.rxdesc).word0 <;> simp [rxEffects, hacc, hen]

/-- The accesses among an operation's effects are those of the table (R53), in its order (R56). -/
theorem accessesOf_effects (i : Instr) (s : State) : accessesOf (effects i s) = dmaAccesses i s := by
  cases i with
  | storeCtrl size value =>
    rw [effects_storeCtrl, dmaAccesses_storeCtrl]
    split
    · exact accessesOf_txEffects _
    · rfl
  | txSend => exact accessesOf_txEffects s
  | rxNoBuf frame =>
    rw [effects_rxNoBuf]
    change _ = if rxEnabled s.ctrl then _ else _
    split <;> rfl
  | rxDeliver frame =>
    rw [effects_rxDeliver]
    change _ = if rxEnabled s.ctrl then rxAccesses frame s else []
    split
    · exact accessesOf_rxEffects frame s
    · rfl
  | _ => rfl

/-! ## Memory changes where a write access is -/

theorem readByte_foldl_applyEffect (m : Memory) (es : List Effect) (a : Nat)
    (h : ∀ x ∈ accessesOf es, x.write = true → ¬ (x.addr.toNat ≤ a ∧ a < x.addr.toNat + x.n)) :
    (es.foldl applyEffect m).readByte a = m.readByte a := by
  induction es generalizing m with
  | nil => rfl
  | cons e es ih =>
    rw [List.foldl_cons]
    cases e with
    | memWrite addr bytes =>
      rw [accessesOf_cons_memWrite, List.forall_mem_cons] at h
      rw [ih _ h.2, applyEffect_memWrite, readByte_writeRange_other _ _ _ _ (h.1 rfl)]
    | memRead addr n =>
      rw [accessesOf_cons_memRead, List.forall_mem_cons] at h
      exact ih m h.2
    | _ => exact ih m h

end Accesses

/-- Settles O12: an operation is `DmaError` exactly where `nextState` is not what it answers. -/
theorem faultsExactlyOnInadmissibleDma : Obligations.FaultsExactlyOnInadmissibleDma := fun i s =>
  ⟨exec_eq_dmaError_iff.trans not_dmaAdmitted_iff, exec_ne_refused i s⟩

/-- Settles O13: where the accesses are admitted the operation answers `nextState`, which keeps both fields. -/
theorem everyOperationCompletes : Obligations.EveryOperationCompletes := fun i s hadm =>
  ⟨nextState i s, exec_eq_next hadm, rfl, rfl⟩

/-- Settles O14: the trace grows by the effects, whose accesses are those of the table. -/
theorem accessesAreThoseOfTheTable : Obligations.AccessesAreThoseOfTheTable := by
  intro i s t h
  obtain ⟨-, rfl⟩ := exec_eq_next_iff.1 h
  rw [← accessesOf_effects]
  exact accessesOf_append ..

/-- Settles O16: memory changes by the write accesses among the effects only. -/
theorem memoryFrame : Obligations.MemoryFrame := by
  intro i s t h a hout
  obtain ⟨-, rfl⟩ := exec_eq_next_iff.1 h
  refine readByte_foldl_applyEffect s.mem _ a fun x hx hwrite hin => hout ?_
  rw [accessesOf_effects] at hx
  exact ⟨x, hx, hwrite, hin⟩

end Sys2Proof.Machine
end

section
/-! PROOFS. Which operation can change which register, what reads back, and what does not interfere (R116, R117, R242, R21,
R63). -/

namespace Sys2Proof.Machine

section Registers

variable {i : Instr} {s t : State}

theorem ctrlAfter_of_other (hstore : ∀ size v, i ≠ .storeCtrl size v) (hreset : i ≠ .reset) : ctrlAfter i s = s.ctrl := by
  cases i with
  | storeCtrl size value => exact absurd rfl (hstore size value)
  | reset => exact absurd rfl hreset
  | _ => rfl

theorem macHiAfter_of_other (hstore : ∀ size v, i ≠ .storeMacHi size v) : macHiAfter i s = s.macHi := by
  cases i with
  | storeMacHi size value => exact absurd rfl (hstore size value)
  | _ => rfl

theorem macLoAfter_of_other (hstore : ∀ size v, i ≠ .storeMacLo size v) : macLoAfter i s = s.macLo := by
  cases i with
  | storeMacLo size value => exact absurd rfl (hstore size value)
  | _ => rfl

theorem mdioAfter_of_other (hstore : ∀ size v, i ≠ .storeMdio size v)
    (hrequest : ∀ v, i ≠ .mdioNoPhy v ∧ i ≠ .mdioWrite v ∧ i ≠ .mdioRead v) (hreset : i ≠ .reset) :
    mdioAfter i s = s.mdio := by
  cases i with
  | storeMdio size value => exact absurd rfl (hstore size value)
  | mdioNoPhy value => exact absurd rfl (hrequest value).1
  | mdioWrite value => exact absurd rfl (hrequest value).2.1
  | mdioRead value => exact absurd rfl (hrequest value).2.2
  | reset => exact absurd rfl hreset
  | _ => rfl

theorem rxdescAfter_of_no_receive (hc : completesReceive i s = false) (hstore : ∀ size v, i ≠ .storeRxdesc size v) :
    rxdescAfter i s = s.rxdesc := by
  cases i with
  | storeRxdesc size value => exact absurd rfl (hstore size value)
  | _ => simp [rxdescAfter, hc]

theorem statusWithoutTransfer_of_other (hstore : ∀ size v, i ≠ .storeStatus size v) (hreset : i ≠ .reset) :
    statusWithoutTransfer i s = s.status := by
  cases i with
  | storeStatus size value => exact absurd rfl (hstore size value)
  | reset => exact absurd rfl hreset
  | _ => rfl

theorem assertsLine_of_no_transfer (htx : completesTransmit i s = false) (hrx : completesReceive i s = false) :
    assertsLine i s = false := by
  simp [assertsLine, htx, hrx]

end Registers

/-- Settles O24: each register of `nextState` changes by the operations named, and the line by a completed transfer. -/
theorem registersAreIndependent : Obligations.RegistersAreIndependent := by
  intro i s t h
  obtain ⟨-, rfl⟩ := exec_eq_next_iff.1 h
  refine ⟨ctrlAfter_of_other, macHiAfter_of_other, macLoAfter_of_other, mdioAfter_of_other, fun hstore hc =>
    txdescAfter_of_no_transmit hc hstore, fun hstore hc => rxdescAfter_of_no_receive hc hstore,
    fun hstore hreset htx hrx => ?_, fun htx hrx => ?_⟩
  · exact (statusAfter_of_no_transfer htx hrx).trans (statusWithoutTransfer_of_other hstore hreset)
  · exact congrArg (· || s.irq) (assertsLine_of_no_transfer htx hrx)

/-- The MAC-high register holds the low half of what was stored (R110, R116). -/
theorem macHiValue_macHiOfValue (value : Word) : macHiValue (macHiOfValue value) = value &&& 0xffff := by
  unfold macHiValue macHiOfValue
  ext k hk
  interval_cases k <;> simp

/-- Settles O23: the load answers the register that `nextState` of the store holds. -/
theorem readbackLaw : Obligations.ReadbackLaw := by
  intro size size' v s t
  refine ⟨fun h => ?_, fun h => ?_, fun h => ?_, fun h => ?_, fun h => ?_, fun h => ?_, fun h => ?_⟩ <;>
    obtain ⟨-, rfl⟩ := exec_eq_next_iff.1 h
  case refine_3 => exact congrArg _ (congrArg (State.emit _ <| Effect.loadReturn ·) (macHiValue_macHiOfValue v))
  all_goals rfl

/-- Of status only bit 3 can change where no receive completes, the status store and reset aside (R138). -/
theorem statusAfter_getLsbD_of_no_receive {i : Instr} {s : State} {k : Nat} (hrx : completesReceive i s = false)
    (hstore : ∀ size v, i ≠ .storeStatus size v) (hreset : i ≠ .reset) (hk : k ≠ 3) :
    (statusAfter i s).getLsbD k = s.status.getLsbD k := by
  cases htx : completesTransmit i s with
  | true => rw [statusAfter_of_completesTransmit htx, setFlag_getLsbD_other _ (src := .transmit) hk]
  | false => rw [statusAfter_of_no_transfer htx hrx, statusWithoutTransfer_of_other hstore hreset]

/-- Settles O25: `nextState` of a ctrl store. -/
theorem ctrlStoreReplacesCtrl : Obligations.CtrlStoreReplacesCtrl := fun size value s hadm =>
  ⟨nextState (.storeCtrl size value) s, exec_eq_next hadm, rfl, rfl, rfl, rfl, rfl, rfl, fun _ hk =>
    statusAfter_getLsbD_of_no_receive rfl (by simp) (by simp) hk⟩

/-! ## Non-interference -/

/-- The MAC address is an input of its own loads and stores only. -/
theorem nextState_withMac {i : Instr} (s : State) (hi : BitVec 16) (lo : Word)
    (hloadHi : ∀ size, i ≠ .loadMacHi size) (hloadLo : ∀ size, i ≠ .loadMacLo size)
    (hstoreHi : ∀ size v, i ≠ .storeMacHi size v) (hstoreLo : ∀ size v, i ≠ .storeMacLo size v) :
    nextState i (withMac s hi lo) = withMac (nextState i s) hi lo := by
  cases i with
  | loadMacHi size => exact absurd rfl (hloadHi size)
  | loadMacLo size => exact absurd rfl (hloadLo size)
  | storeMacHi size value => exact absurd rfl (hstoreHi size value)
  | storeMacLo size value => exact absurd rfl (hstoreLo size value)
  | _ => rfl

theorem dmaAdmitted_withMac_iff (i : Instr) (s : State) (hi : BitVec 16) (lo : Word) :
    dmaAdmitted i (withMac s hi lo) ↔ dmaAdmitted i s := Iff.rfl

/-- Settles O53: the accesses and `nextState` are the same but for the MAC address. -/
theorem macAddressDoesNotInterfere : Obligations.MacAddressDoesNotInterfere := by
  intro i s hi lo hloadHi hloadLo hstoreHi hstoreLo
  by_cases hadm : dmaAdmitted i s
  · rw [exec_eq_next hadm, exec_eq_next ((dmaAdmitted_withMac_iff i s hi lo).2 hadm),
      nextState_withMac s hi lo hloadHi hloadLo hstoreHi hstoreLo]
    rfl
  · rw [exec_eq_dmaError hadm, exec_eq_dmaError (mt (dmaAdmitted_withMac_iff i s hi lo).1 hadm)]
    rfl

/-- The status bits are an input of their own load only. -/
theorem nextState_withStatus {i : Instr} (s : State) (status : Word) (hload : ∀ size, i ≠ .loadStatus size) :
    { nextState i { s with status := status } with status := 0 } = { nextState i s with status := 0 } := by
  cases i with
  | loadStatus size => exact absurd rfl (hload size)
  | _ => rfl

theorem dmaAdmitted_withStatus_iff (i : Instr) (s : State) (status : Word) :
    dmaAdmitted i { s with status := status } ↔ dmaAdmitted i s := Iff.rfl

/-- Settles O54: the accesses are the same, and `nextState` but for status. -/
theorem statusIsReadByNoOtherOperation : Obligations.StatusIsReadByNoOtherOperation := by
  intro i s t status hload h
  obtain ⟨hadm, rfl⟩ := exec_eq_next_iff.1 h
  exact ⟨_, exec_eq_next ((dmaAdmitted_withStatus_iff i s status).2 hadm), nextState_withStatus s status hload⟩

/-! ## Repetition -/

theorem clearStatus_clearStatus (status value : Word) :
    clearStatus (clearStatus status value) value = clearStatus status value := by
  rw [clearStatus, clearStatus, BitVec.and_assoc, BitVec.and_self]

theorem nextState_storeTxdesc (size : Byte) (value : Word) (s : State) :
    nextState (.storeTxdesc size value) s = { s with txdesc := newPointer value } :=
  nextState_of_exec (i := .storeTxdesc size value) rfl

theorem nextState_storeRxdesc (size : Byte) (value : Word) (s : State) :
    nextState (.storeRxdesc size value) s = { s with rxdesc := newPointer value } :=
  nextState_of_exec (i := .storeRxdesc size value) rfl

/-- The operations of R63 make no access and, done again, change the trace only. -/
theorem nextState_nextState {i : Instr} (s : State)
    (hctrl : ∀ v size, i = .storeCtrl size v → v.getLsbD 0 = false) (hidle : i ≠ .txIdle) (hsend : i ≠ .txSend)
    (hreceive : ∀ f, i ≠ .rxOff f ∧ i ≠ .rxNoBuf f ∧ i ≠ .rxDeliver f) :
    dmaAccesses i (nextState i s) = [] ∧
      { nextState i (nextState i s) with trace := [] } = { nextState i s with trace := [] } := by
  cases i with
  | storeCtrl size value =>
    have htx := hctrl value size rfl
    rw [nextState_storeCtrl_of_clear size htx, nextState_storeCtrl_of_clear size htx, dmaAccesses_storeCtrl, htx]
    exact ⟨rfl, rfl⟩
  | storeStatus size value =>
    exact ⟨rfl, congrArg (fun status => { nextState (.storeStatus size value) s with status := status, trace := [] })
      (clearStatus_clearStatus s.status value)⟩
  | storeTxdesc size value =>
    refine ⟨rfl, ?_⟩
    rw [nextState_storeTxdesc, nextState_storeTxdesc]
  | storeRxdesc size value =>
    refine ⟨rfl, ?_⟩
    rw [nextState_storeRxdesc, nextState_storeRxdesc]
  | txIdle => exact absurd rfl hidle
  | txSend => exact absurd rfl hsend
  | rxOff frame => exact absurd rfl (hreceive frame).1
  | rxNoBuf frame => exact absurd rfl (hreceive frame).2.1
  | rxDeliver frame => exact absurd rfl (hreceive frame).2.2
  | _ => exact ⟨rfl, rfl⟩

/-- Settles O57: the second time too no access is made, so `nextState` is answered. -/
theorem idempotentOperations : Obligations.IdempotentOperations := by
  intro i s t hctrl hidle hsend hreceive h
  obtain ⟨-, rfl⟩ := exec_eq_next_iff.1 h
  obtain ⟨hacc, htwice⟩ := nextState_nextState s hctrl hidle hsend hreceive
  exact ⟨_, exec_eq_next (dmaAdmitted_of_no_access hacc), htwice⟩

/-! ## The interrupt line -/

theorem assertsOf_append (a b : List Effect) : assertsOf (a ++ b) = assertsOf a + assertsOf b := by
  simp [assertsOf]

@[simp] theorem assertsOf_nil : assertsOf [] = 0 := rfl

@[simp] theorem assertsOf_cons_irqAssert (line : Nat) (rest : List Effect) :
    assertsOf (.irqAssert line :: rest) = assertsOf rest + 1 := rfl

@[simp] theorem assertsOf_cons_other {e : Effect} (rest : List Effect) (h : ∀ line, e ≠ .irqAssert line) :
    assertsOf (e :: rest) = assertsOf rest := by
  cases e with
  | irqAssert line => exact absurd rfl (h line)
  | _ => rfl

theorem assertsOf_signalEffects (enabled : Bool) (s : State) :
    assertsOf (signalEffects enabled s) = if enabled then 1 else 0 := by
  cases enabled <;> rfl

theorem assertsOf_txEffects (s : State) :
    assertsOf (txEffects s) =
      if descEnable (descriptorAt s.mem s.txdesc).word0 && txInterruptEnabled s.ctrl then 1 else 0 := by
  cases hen : descEnable (descriptorAt s.mem s.txdesc).word0 <;>
    simp [txEffects, hen, assertsOf_signalEffects]

theorem assertsOf_rxEffects (frame : Frame) (s : State) :
    assertsOf (rxEffects frame s) =
      if descEnable (descriptorAt s.mem s.rxdesc).word0 && rxInterruptEnabled s.ctrl then 1 else 0 := by
  cases hen : descEnable (descriptorAt s.mem s.rxdesc).word0 <;>
    simp [rxEffects, hen, assertsOf_signalEffects, assertsOf_append]

/-- One assert signal at a completion whose interrupt is enabled, and no other (R197). -/
theorem assertsOf_effects (i : Instr) (s : State) : assertsOf (effects i s) = if assertsLine i s then 1 else 0 := by
  cases i with
  | storeCtrl size value =>
    have hl : assertsLine (.storeCtrl size value) s =
      (value.getLsbD 0 && descEnable (descriptorAt s.mem s.txdesc).word0 && txInterruptEnabled (newCtrl value)) :=
      Bool.or_false _
    rw [effects_storeCtrl, hl]
    cases value.getLsbD 0
    · rfl
    · exact assertsOf_txEffects _
  | txSend =>
    have hl : assertsLine .txSend s =
      (descEnable (descriptorAt s.mem s.txdesc).word0 && txInterruptEnabled s.ctrl) := Bool.or_false _
    rw [hl]
    exact assertsOf_txEffects s
  | rxNoBuf frame =>
    rw [effects_rxNoBuf]
    split <;> rfl
  | rxDeliver frame =>
    have hl : assertsLine (.rxDeliver frame) s = (rxEnabled s.ctrl &&
      descEnable (descriptorAt s.mem s.rxdesc).word0 && rxInterruptEnabled s.ctrl) := rfl
    rw [effects_rxDeliver, hl]
    cases rxEnabled s.ctrl
    · rfl
    · exact assertsOf_rxEffects frame s
  | _ => rfl

/-- Settles O48: `assertsLine` is the condition, for the line and for the signals among the effects. -/
theorem assertedExactlyOnEnabledCompletion : Obligations.AssertedExactlyOnEnabledCompletion := by
  intro i s t h
  obtain ⟨-, rfl⟩ := exec_eq_next_iff.1 h
  have hirq : (nextState i s).irq = (assertsLine i s || s.irq) := rfl
  have hcount : assertsOf (nextState i s).trace = assertsOf s.trace + if assertsLine i s then 1 else 0 :=
    (assertsOf_append ..).trans (congrArg _ (assertsOf_effects i s))
  change if assertsLine i s then _ else _
  rw [hirq, hcount]
  cases assertsLine i s
  · exact ⟨rfl, rfl⟩
  · exact ⟨rfl, rfl⟩

theorem irq_of_exec {i : Instr} {s t : State} (h : exec i s = .next t) (hirq : s.irq = true) : t.irq = true := by
  obtain ⟨-, rfl⟩ := exec_eq_next_iff.1 h
  exact (congrArg (_ || ·) hirq).trans (Bool.or_true _)

end Sys2Proof.Machine
end

section
/-! PROOFS. Ring advance (R140): the window's base and the offset in it, as numbers. -/

namespace Sys2Proof.Machine

/-! ## The base and the offset of a pointer -/

theorem toNat_and_ringOffsetMask (p : Word) : (p &&& ringOffsetMask).toNat = p.toNat % 1024 := by
  rw [BitVec.toNat_and]
  exact Nat.and_two_pow_sub_one_eq_mod p.toNat 10

theorem ringPage_and_ringOffset (p q : Word) : (p &&& ringPageMask) &&& (q &&& ringOffsetMask) = 0 := by
  calc (p &&& ringPageMask) &&& (q &&& ringOffsetMask)
    _ = (p &&& q) &&& (ringPageMask &&& ringOffsetMask) := by ac_rfl
    _ = 0 := BitVec.and_zero

/-- A word is its window's base and its offset in the window. -/
theorem ringPage_add_ringOffset (p : Word) : (p &&& ringPageMask) + (p &&& ringOffsetMask) = p := by
  rw [BitVec.add_eq_or_of_and_eq_zero _ _ (ringPage_and_ringOffset p p), ← BitVec.and_or_distrib_left,
    show ringPageMask ||| ringOffsetMask = BitVec.allOnes 32 by decide, BitVec.and_allOnes]

theorem toNat_and_ringPageMask (p : Word) : (p &&& ringPageMask).toNat = p.toNat - p.toNat % 1024 := by
  have hsum := ringPage_add_ringOffset p
  have hoff := toNat_and_ringOffsetMask p
  bv_omega

theorem toNat_advance_wrap (p : Word) : (advance p true).toNat = p.toNat - p.toNat % 1024 :=
  toNat_and_ringPageMask p

theorem toNat_advance_next (p : Word) :
    (advance p false).toNat = p.toNat - p.toNat % 1024 + (p.toNat % 1024 + 8) % 1024 := by
  have hpage := toNat_and_ringPageMask p
  have hoff := toNat_and_ringOffsetMask (p + descStride)
  have hstride : (p + descStride).toNat = (p.toNat + 8) % 2 ^ 32 := BitVec.toNat_add ..
  change ((p &&& ringPageMask) ||| ((p + descStride) &&& ringOffsetMask)).toNat = _
  rw [← BitVec.add_eq_or_of_and_eq_zero _ _ (ringPage_and_ringOffset p _), BitVec.toNat_add, hpage, hoff, hstride]
  have := p.isLt
  omega

/-- Settles O32: the window's base stays, and the offset is 0 or 8 further on, modulo 1024. -/
theorem advanceStaysInTheWindow : Obligations.AdvanceStaysInTheWindow := by
  intro p w
  have hwrap := toNat_advance_wrap p
  have hnext := toNat_advance_next p
  cases w <;> omega

/-! ## Advancing again and again -/

theorem iterate_advance (p : Word) (k : Nat) :
    ((fun q => advance q false)^[k] p).toNat = p.toNat - p.toNat % 1024 + (p.toNat % 1024 + 8 * k) % 1024 := by
  induction k with
  | zero => simp; omega
  | succ k ih =>
    rw [Function.iterate_succ_apply', toNat_advance_next, ih]
    omega

/-- Settles O33: after `k` advances the offset is `8 * k` further on, modulo 1024. -/
theorem ringWithoutWrapHas128Slots : Obligations.RingWithoutWrapHas128Slots := by
  intro p k hpos hle
  rw [← BitVec.toNat_inj, iterate_advance]
  omega

/-! ## Alignment -/

theorem pointerInv_iff (p : Word) : pointerInv p ↔ p.toNat % 4 = 0 := by
  rw [pointerInv, ← BitVec.toNat_inj, BitVec.toNat_and]
  exact Iff.of_eq (congrArg (· = 0) (Nat.and_two_pow_sub_one_eq_mod p.toNat 2))

theorem pointerInv_advance {p : Word} (wrap : Bool) (h : pointerInv p) : pointerInv (advance p wrap) :=
  (pointerInv_iff _).2 ((advanceStaysInTheWindow p wrap).2.1 ((pointerInv_iff p).1 h))

theorem pointerInv_newPointer (value : Word) : pointerInv (newPointer value) := by
  rw [pointerInv, newPointer, BitVec.and_assoc]
  exact BitVec.and_zero

/-- A multiple of 4 is stored as it is (R113, R114). -/
theorem newPointer_of_pointerInv {p : Word} (h : pointerInv p) : newPointer p = p := by
  calc newPointer p
    _ = (p &&& ptrAlignMask) ||| (p &&& 3) := by rw [show p &&& 3 = 0 from h]; exact BitVec.or_zero.symm
    _ = p &&& (ptrAlignMask ||| 3) := (BitVec.and_or_distrib_left ..).symm
    _ = p := BitVec.and_allOnes

end Sys2Proof.Machine
end

section
/-! PROOFS. The layout of an MDIO result (R16, R171 to R173, R176), and that it meets the invariant (R17). -/

namespace Sys2Proof.Machine

/-- The fields of an mdio word: bits 15:6, which hold the addresses of the request, the flags in bits 5:0, and the data in
bits 31:16 (R16). -/
structure MdioFields (mdio : Word) (addresses : BitVec 10) (flags data : Word) : Prop where
  addresses_eq : mdio.extractLsb' 6 10 = addresses
  flags_eq : mdio &&& 0x3f = flags
  data_eq : mdio >>> 16 = data

theorem mdioFields_noPhy (value : Word) :
    MdioFields (mdioNoPhyResult value) (value.extractLsb' 6 10) 4 0xffff := by
  constructor <;> unfold mdioNoPhyResult
  all_goals
    ext k hk
    interval_cases k <;> simp [mdioKeepMask, mdioFlagMask, mdioLinkFail]

theorem mdioFields_write (value : Word) :
    MdioFields (mdioWriteResult value) (value.extractLsb' 6 10) 0 (value >>> 16) := by
  constructor <;> unfold mdioWriteResult
  all_goals
    ext k hk
    interval_cases k <;> simp [mdioKeepMask, mdioFlagMask]

theorem mdioFields_read (c : Config) (value : Word) :
    MdioFields (mdioReadResult c value) (value.extractLsb' 6 10) 0
      ((phyTable c (mdioRegAddress value)).setWidth 32) := by
  constructor <;> unfold mdioReadResult
  all_goals
    generalize phyTable c (mdioRegAddress value) = entry
    ext k hk
    interval_cases k <;> simp [mdioReadMask, mdioKeepMask, mdioFlagMask]

/-- Bits 15:11 of a word are the upper five of its addresses. -/
theorem mdioPhyAddress_of_addresses {mdio value : Word} (h : mdio.extractLsb' 6 10 = value.extractLsb' 6 10) :
    mdioPhyAddress mdio = mdioPhyAddress value := by
  have hupper (w : Word) : mdioPhyAddress w = (w.extractLsb' 6 10).extractLsb' 5 5 := by
    unfold mdioPhyAddress
    ext k hk
    interval_cases k <;> simp
  rw [hupper, hupper, h]

theorem mdioInv_mdioResult (c : Config) (value : Word) : mdioInv (mdioResult c value) := by
  have hphy {mdio flags data} (hf : MdioFields mdio (value.extractLsb' 6 10) flags data) :
      (mdio >>> 11) &&& 0x1f = 1 ↔ mdioPhyAddress value = phyAddr := by
    rw [mdioPhyAddress_eq_one, mdioPhyAddress_of_addresses hf.addresses_eq]
  unfold mdioResult
  split_ifs with haddr hflag
  · have hf := mdioFields_noPhy value
    exact .inr (.inr ⟨hf.flags_eq, mt (hphy hf).1 haddr, hf.data_eq⟩)
  · have hf := mdioFields_read c value
    exact .inr (.inl ⟨hf.flags_eq, (hphy hf).2 (not_not.1 haddr)⟩)
  · have hf := mdioFields_write value
    exact .inr (.inl ⟨hf.flags_eq, (hphy hf).2 (not_not.1 haddr)⟩)

theorem MdioFields.and_0x3b {mdio flags data : Word} {addresses : BitVec 10} (h : MdioFields mdio addresses flags data) :
    mdio &&& 0x3b = flags &&& 0x3b := by
  rw [← h.flags_eq, BitVec.and_assoc]
  rfl

theorem MdioFields.getLsbD_2 {mdio flags data : Word} {addresses : BitVec 10} (h : MdioFields mdio addresses flags data) :
    mdio.getLsbD 2 = flags.getLsbD 2 := by
  rw [← h.flags_eq, BitVec.getLsbD_and]
  exact (Bool.and_true _).symm

/-- Settles O44: the result of the store is one of the three, by the PHY address and then the read flag. -/
theorem mdioResultLayout : Obligations.MdioResultLayout := by
  intro value s t size h
  cases (mdioRequest_eq value s).symm.trans h
  simp only [ne_eq, mdioPhyAddress_eq_one, mdioReadFlag_iff, mdioReadFlag_eq_false_iff]
  unfold mdioResult
  split_ifs with haddr hflag
  · have hf := mdioFields_noPhy value
    exact ⟨hf.addresses_eq, hf.and_0x3b, iff_of_true hf.getLsbD_2 haddr, fun _ => hf.data_eq,
      fun hphy => absurd hphy haddr, fun hphy => absurd hphy haddr⟩
  · have hf := mdioFields_read s.cfg value
    have hbit : (mdioReadResult s.cfg value).getLsbD 2 = false := hf.getLsbD_2
    exact ⟨hf.addresses_eq, hf.and_0x3b, iff_of_false (ne_true_of_eq_false hbit) haddr, fun hphy => absurd hphy haddr,
      fun _ hwrite => absurd hflag (ne_true_of_eq_false hwrite), fun _ _ => hf.data_eq⟩
  · have hf := mdioFields_write value
    have hbit : (mdioWriteResult value).getLsbD 2 = false := hf.getLsbD_2
    exact ⟨hf.addresses_eq, hf.and_0x3b, iff_of_false (ne_true_of_eq_false hbit) haddr, fun hphy => absurd hphy haddr,
      fun _ _ => hf.data_eq, fun _ hread => absurd hread hflag⟩

end Sys2Proof.Machine
end

section
/-! PROOFS. What a step does: nothing, a move of the environment, or the operation its event selects (R4, R55, R83, D14). -/

namespace Sys2Proof.Machine

/-- The operation an event of the block's own runs (R72, R81). -/
def operationOf (e : Event) (s : State) : Option Instr :=
  match e with
  | .busLoad offset size => some (decodeBusLoad offset size)
  | .busStore offset size value => some (decodeBusStore offset size (storeValue value))
  | .canReceive => some .rxCanReceive
  | .receive frame => some (receiveOperation frame s)
  | .reset => some .reset
  | .guestWrite _ _ => none
  | .lower => none

section Steps

variable {s t : State} {e : Event} {rest : List Event} {i : Instr}

theorem step_of_no_event (h : s.inputs = []) : step s = .next s := by
  simp only [step, h]

theorem step_lower (h : s.inputs = .lower :: rest) : step s = .next { s with irq := false, inputs := rest } := by
  simp only [step, h, present, lowerLine, tookInput_of_inputs h]

theorem step_guestWrite {addr : Word} {bytes : List Byte} (h : s.inputs = .guestWrite addr bytes :: rest) :
    step s = .next { s with mem := guestStore s.mem addr bytes, inputs := rest } := by
  simp only [step, h, present, tookInput_of_inputs h]

theorem step_busLoad {offset : Word} {size : Byte} (h : s.inputs = .busLoad offset size :: rest) :
    step s = exec (decodeBusLoad offset size) { s with inputs := rest } :=
  step_eq_exec h rfl rfl

theorem step_busStore {offset : Word} {size : Byte} {value : Nat} (h : s.inputs = .busStore offset size value :: rest) :
    step s = exec (decodeBusStore offset size (storeValue value)) { s with inputs := rest } :=
  step_eq_exec h rfl rfl

theorem step_reset (h : s.inputs = .reset :: rest) : step s = exec .reset { s with inputs := rest } :=
  step_eq_exec h rfl rfl

/-- Everything a step can do. -/
theorem step_cases (s : State) :
    (s.inputs = [] ∧ step s = .next s) ∨
    (∃ addr bytes rest, s.inputs = .guestWrite addr bytes :: rest ∧
      step s = .next { s with mem := guestStore s.mem addr bytes, inputs := rest }) ∨
    (∃ rest, s.inputs = .lower :: rest ∧ step s = .next { s with irq := false, inputs := rest }) ∨
    (∃ e rest i, s.inputs = e :: rest ∧ operationOf e { s with inputs := rest } = some i ∧
      step s = exec i { s with inputs := rest }) := by
  cases h : s.inputs with
  | nil => exact .inl ⟨rfl, step_of_no_event h⟩
  | cons e rest =>
    cases e with
    | guestWrite addr bytes => exact .inr (.inl ⟨addr, bytes, rest, rfl, step_guestWrite h⟩)
    | lower => exact .inr (.inr (.inl ⟨rest, rfl, step_lower h⟩))
    | busLoad offset size => exact .inr (.inr (.inr ⟨_, _, _, rfl, rfl, step_busLoad h⟩))
    | busStore offset size value => exact .inr (.inr (.inr ⟨_, _, _, rfl, rfl, step_busStore h⟩))
    | canReceive => exact .inr (.inr (.inr ⟨_, _, _, rfl, rfl, step_canReceive h⟩))
    | receive frame => exact .inr (.inr (.inr ⟨_, _, _, rfl, rfl, step_receive h⟩))
    | reset => exact .inr (.inr (.inr ⟨_, _, _, rfl, rfl, step_reset h⟩))

/-- The MDIO requests run inside an mdio store only (R82): no event selects one by itself. -/
theorem operationOf_ne_mdioRequest (h : operationOf e s = some i) (v : Word) :
    i ≠ .mdioNoPhy v ∧ i ≠ .mdioWrite v ∧ i ≠ .mdioRead v := by
  cases e with
  | busLoad offset size =>
    cases h
    rcases offset_cases offset with hu | rfl | rfl | rfl | rfl | rfl | rfl | rfl
    · simp [decodeBusLoad_unmapped size hu]
    all_goals exact ⟨nofun, nofun, nofun⟩
  | busStore offset size value =>
    cases h
    rcases offset_cases offset with hu | rfl | rfl | rfl | rfl | rfl | rfl | rfl
    · simp [decodeBusStore_unmapped size _ hu]
    all_goals exact ⟨nofun, nofun, nofun⟩
  | receive frame =>
    cases h
    unfold receiveOperation
    split_ifs <;> exact ⟨nofun, nofun, nofun⟩
  | canReceive | reset =>
    cases h
    exact ⟨nofun, nofun, nofun⟩
  | guestWrite | lower => cases h

end Steps

/-- Settles O6: the step decodes the record its first event presents. -/
theorem stepRunsTheDecodedOperation : Obligations.StepRunsTheDecodedOperation := fun _ _ _ _ _ => step_eq_exec

/-- Settles O7: an empty list of events is the first branch of a step. -/
theorem noEventNoChange : Obligations.NoEventNoChange := fun _ => step_of_no_event

/-- Settles O8: the record of each event decodes to its operation. -/
theorem eventRunsItsOperation : Obligations.EventRunsItsOperation := fun _ _ _ _ _ =>
  ⟨step_busLoad, step_busStore, step_canReceive, step_reset⟩

/-- Settles O11: no operation refuses, and a step is an operation or answers a state. -/
theorem stepNeverRefuses : Obligations.StepNeverRefuses := by
  intro s r
  rcases step_cases s with ⟨-, e⟩ | ⟨_, _, _, -, e⟩ | ⟨_, -, e⟩ | ⟨_, _, i, -, -, e⟩ <;> rw [e]
  · nofun
  · nofun
  · nofun
  · exact exec_ne_refused i _ r

/-- Settles O49: an operation sets the line or leaves it, and of the environment's moves only `lower` touches it. -/
theorem onlyTheConsumerLowersTheLine : Obligations.OnlyTheConsumerLowersTheLine := by
  refine ⟨fun i s t => irq_of_exec, fun s t h hhigh hlow => ?_⟩
  rcases step_cases s with ⟨-, e⟩ | ⟨_, _, _, -, e⟩ | ⟨rest, hin, -⟩ | ⟨_, _, i, -, -, e⟩
  · cases e.symm.trans h
    exact absurd hhigh (ne_true_of_eq_false hlow)
  · cases e.symm.trans h
    exact absurd hhigh (ne_true_of_eq_false hlow)
  · rw [hin]
    rfl
  · exact absurd (irq_of_exec (e.symm.trans h) hhigh) (ne_true_of_eq_false hlow)

/-- Settles O55: no operation touches the parameters or the list of events, from which the step took the first. -/
theorem parametersAreConstant : Obligations.ParametersAreConstant := by
  intro s t h
  rcases step_cases s with ⟨hin, e⟩ | ⟨_, _, rest, hin, e⟩ | ⟨rest, hin, e⟩ | ⟨_, rest, i, hin, -, e⟩ <;>
    replace h := e.symm.trans h <;> rw [hin]
  · cases h
    exact ⟨rfl, hin⟩
  · cases h
    exact ⟨rfl, rfl⟩
  · cases h
    exact ⟨rfl, rfl⟩
  · obtain ⟨-, rfl⟩ := exec_eq_next_iff.1 h
    exact ⟨rfl, rfl⟩

/-- Settles O56: an operation adds its effects to the trace, and a move of the environment adds nothing. -/
theorem traceOnlyGrows : Obligations.TraceOnlyGrows := by
  intro s t h
  rcases step_cases s with ⟨-, e⟩ | ⟨_, _, _, -, e⟩ | ⟨_, -, e⟩ | ⟨_, _, i, -, -, e⟩ <;> replace h := e.symm.trans h
  · cases h
    exact ⟨[], (List.append_nil _).symm⟩
  · cases h
    exact ⟨[], (List.append_nil _).symm⟩
  · cases h
    exact ⟨[], (List.append_nil _).symm⟩
  · obtain ⟨-, rfl⟩ := exec_eq_next_iff.1 h
    exact ⟨effects i _, rfl⟩

/-! ## The guest's stores, the address counted modulo 2^32 (log 19) -/

section GuestStore

variable {m : Memory} {addr : Word} {bytes : List Byte}

/-- Stepping from `addr + 1` is stepping from `addr`, one further. -/
theorem addr_add_one_add (addr : Word) (k : Nat) :
    addr + 1 + BitVec.ofNat 32 k = addr + BitVec.ofNat 32 (k + 1) := by
  rw [BitVec.add_assoc, BitVec.add_comm 1, BitVec.ofNat_add]
  rfl

/-- Fewer than 2^32 steps up from an address do not come back to it. -/
theorem addr_add_ne {k : Nat} (hpos : 0 < k) (hk : k < 2 ^ 32) : (addr + BitVec.ofNat 32 k).toNat ≠ addr.toNat := by
  rw [BitVec.toNat_add, BitVec.toNat_ofNat]
  have := addr.isLt
  omega

theorem readByte_guestStore_other {a : Nat}
    (h : ∀ k, k < bytes.length → a ≠ (addr + BitVec.ofNat 32 k).toNat) :
    (guestStore m addr bytes).readByte a = m.readByte a := by
  induction bytes generalizing m addr with
  | nil => rfl
  | cons b bs ih =>
    rw [guestStore, ih fun k hk => addr_add_one_add addr k ▸ h (k + 1) (Nat.succ_lt_succ hk)]
    exact readByte_writeByte_other m b (by simpa using h 0 (Nat.succ_pos _))

theorem readByte_guestStore_inside (hwf : m.wf = true) (hlen : bytes.length ≤ 2 ^ 32) {k : Nat}
    (hk : k < bytes.length) :
    (guestStore m addr bytes).readByte (addr + BitVec.ofNat 32 k).toNat = bytes.getD k 0 := by
  induction bytes generalizing m addr k with
  | nil => simp at hk
  | cons b bs ih =>
    rw [List.length_cons] at hlen hk
    rw [guestStore]
    cases k with
    | zero =>
      rw [readByte_guestStore_other fun j hj => ?_]
      · simpa using readByte_writeByte_same b hwf
      · rw [addr_add_one_add]
        simpa using (addr_add_ne (Nat.succ_pos j) (by omega)).symm
    | succ k =>
      rw [← addr_add_one_add]
      exact ih (wf_writeByte b hwf addr.isLt) (by omega) (by omega)

end GuestStore

/-- Settles O10: `lower` and the guest's write are moves of the environment, of which the second stores byte by byte. -/
theorem environmentMovesBetweenEvents : Obligations.EnvironmentMovesBetweenEvents := fun s _ addr bytes =>
  ⟨step_lower, fun h hwf hlen => ⟨guestStore s.mem addr bytes, step_guestWrite h,
    fun _ => readByte_guestStore_inside hwf hlen, fun _ => readByte_guestStore_other⟩⟩

end Sys2Proof.Machine
end

section
/-! PROOFS. The invariant (R12, R14, R17, R19, log 7): at power-on (R221), after every operation and after every step. -/

namespace Sys2Proof.Machine

/-! ## The registers -/

theorem ctrlInv_newCtrl (value : Word) : ctrlInv (newCtrl value) := by
  refine ⟨by simp [newCtrl, ctrlGa], ?_⟩
  calc newCtrl value &&& 0xf7fffe40
    _ = ((value &&& ctrlWmask) &&& 0xf7fffe40) ||| (ctrlGa &&& 0xf7fffe40) := by
      rw [newCtrl, BitVec.and_comm, BitVec.and_or_distrib_left, BitVec.and_comm, BitVec.and_comm _ ctrlGa]
    _ = value &&& (ctrlWmask &&& 0xf7fffe40) := by rw [BitVec.and_assoc]; exact BitVec.or_zero
    _ = 0 := BitVec.and_zero

theorem ctrlInv_ctrlReset : ctrlInv ctrlReset := by decide

theorem ctrlInv_ctrlAfter {s : State} (i : Instr) (h : ctrlInv s.ctrl) : ctrlInv (ctrlAfter i s) := by
  cases i with
  | storeCtrl size value => exact ctrlInv_newCtrl value
  | reset => exact ctrlInv_ctrlReset
  | _ => exact h

theorem statusInv_setFlag {status : Word} (src : Source) (h : statusInv status) : statusInv (setFlag status src) := by
  have hflag : flagOf src &&& 0xfffffff3 = 0 := by cases src <;> rfl
  rw [statusInv, setFlag, BitVec.and_comm, BitVec.and_or_distrib_left, BitVec.and_comm, BitVec.and_comm _ (flagOf src),
    hflag, show status &&& 0xfffffff3 = 0 from h]
  rfl

theorem statusInv_clearStatus {status : Word} (value : Word) (h : statusInv status) :
    statusInv (clearStatus status value) := by
  calc (status &&& ~~~value) &&& 0xfffffff3
    _ = (status &&& 0xfffffff3) &&& ~~~value := by ac_rfl
    _ = 0 &&& ~~~value := by rw [show status &&& 0xfffffff3 = 0 from h]
    _ = 0 := BitVec.zero_and

theorem statusInv_statusAfter {s : State} (i : Instr) (h : statusInv s.status) : statusInv (statusAfter i s) := by
  unfold statusAfter
  split_ifs
  · exact statusInv_setFlag .transmit h
  · exact statusInv_setFlag .receive h
  · cases i with
    | storeStatus size value => exact statusInv_clearStatus value h
    | reset => exact BitVec.zero_and
    | _ => exact h

/-- Only an mdio store and reset change mdio, the MDIO requests by themselves aside. -/
theorem mdioInv_mdioAfter {s : State} {i : Instr} (hrequest : ∀ v, i ≠ .mdioNoPhy v ∧ i ≠ .mdioWrite v ∧ i ≠ .mdioRead v)
    (h : mdioInv s.mdio) : mdioInv (mdioAfter i s) := by
  cases i with
  | storeMdio size value => exact mdioInv_mdioResult s.cfg value
  | reset => exact .inl rfl
  | mdioNoPhy value => exact absurd rfl (hrequest value).1
  | mdioWrite value => exact absurd rfl (hrequest value).2.1
  | mdioRead value => exact absurd rfl (hrequest value).2.2
  | _ => exact h

theorem pointerInv_txdescAfter {s : State} (i : Instr) (h : pointerInv s.txdesc) : pointerInv (txdescAfter i s) := by
  unfold txdescAfter
  split
  · exact pointerInv_advance _ h
  · split
    · exact pointerInv_newPointer _
    · exact h

theorem pointerInv_rxdescAfter {s : State} (i : Instr) (h : pointerInv s.rxdesc) : pointerInv (rxdescAfter i s) := by
  unfold rxdescAfter
  split
  · exact pointerInv_advance _ h
  · split
    · exact pointerInv_newPointer _
    · exact h

/-! ## Memory -/

/-- Write accesses that end within the address space keep the canonical form. -/
theorem wf_foldl_applyEffect {m : Memory} {es : List Effect} (hm : m.wf = true)
    (h : ∀ x ∈ accessesOf es, x.addr.toNat + x.n ≤ guestSpace) : (es.foldl applyEffect m).wf = true := by
  induction es generalizing m with
  | nil => exact hm
  | cons e es ih =>
    rw [List.foldl_cons]
    cases e with
    | memWrite addr bytes =>
      rw [accessesOf_cons_memWrite, List.forall_mem_cons] at h
      exact ih (wf_writeRange bytes hm h.1) h.2
    | memRead addr n =>
      rw [accessesOf_cons_memRead, List.forall_mem_cons] at h
      exact ih hm h.2
    | _ => exact ih hm h

/-- Admitted accesses end within the address space (R46). -/
theorem wf_mem_nextState {i : Instr} {s : State} (hadm : dmaAdmitted i s) (hm : s.mem.wf = true) :
    (nextState i s).mem.wf = true := by
  refine wf_foldl_applyEffect hm fun x hx => ?_
  rw [accessesOf_effects] at hx
  exact admits_fits (hadm x hx)

/-! ## Operations and steps -/

theorem inv_of_exec {i : Instr} {s t : State} (hrequest : ∀ v, i ≠ .mdioNoPhy v ∧ i ≠ .mdioWrite v ∧ i ≠ .mdioRead v)
    (hinv : Inv s) (h : exec i s = .next t) : Inv t := by
  obtain ⟨hadm, rfl⟩ := exec_eq_next_iff.1 h
  obtain ⟨hctrl, hstatus, hmdio, htx, hrx, hmem⟩ := hinv
  exact ⟨ctrlInv_ctrlAfter i hctrl, statusInv_statusAfter i hstatus, mdioInv_mdioAfter hrequest hmdio,
    pointerInv_txdescAfter i htx, pointerInv_rxdescAfter i hrx, wf_mem_nextState hadm hmem⟩

/-- Settles O52: the environment moves the line or writes guest memory, which keeps its form, and every operation an event
selects keeps the invariant. -/
theorem stepKeepsTheInvariant : Obligations.StepKeepsTheInvariant := by
  intro s t hinv h
  rcases step_cases s with ⟨-, e⟩ | ⟨addr, bytes, _, -, e⟩ | ⟨_, -, e⟩ | ⟨_, rest, i, -, hop, e⟩ <;>
    replace h := e.symm.trans h
  · cases h
    exact hinv
  · cases h
    obtain ⟨hctrl, hstatus, hmdio, htx, hrx, hmem⟩ := hinv
    exact ⟨hctrl, hstatus, hmdio, htx, hrx, wf_guestStore addr bytes hmem⟩
  · cases h
    exact hinv
  · exact inv_of_exec (s := { s with inputs := rest }) (operationOf_ne_mdioRequest hop) hinv h

/-! ## Power-on and reset -/

theorem inv_powerOn (c : Config) : Inv (State.powerOn c) :=
  ⟨ctrlInv_ctrlReset, BitVec.zero_and, .inl rfl, pointerInv_newPointer _, pointerInv_newPointer _, rfl⟩

/-- Settles O51: the pointers are stored with their low bits clear, and the other fields are literals. -/
theorem powerOnMeetsTheInvariant : Obligations.PowerOnMeetsTheInvariant := ⟨inv_powerOn, inv_powerOn Config.platform⟩

/-- Settles O45: `nextState` of reset. -/
theorem resetRestoresCtrlStatusMdio : Obligations.ResetRestoresCtrlStatusMdio := fun _ => rfl

theorem macBytes_of_bytes (m : Vector Byte 6) : macBytes (macHiOfBytes m) (macLoOfBytes m) = m := by
  obtain ⟨h5, h4, h3, h2⟩ := extract_wordOfBytes m[5] m[4] m[3] m[2]
  have h0 : (macHiOfBytes m).extractLsb' 0 8 = m[0] := by
    unfold macHiOfBytes
    ext k hk
    interval_cases k <;> simp
  have h1 : (macHiOfBytes m).extractLsb' 8 8 = m[1] := by
    unfold macHiOfBytes
    ext k hk
    interval_cases k <;> simp
  ext k hk : 1
  unfold macBytes macLoOfBytes
  interval_cases k
  · exact h0
  · exact h1
  · exact h2
  · exact h3
  · exact h4
  · exact h5

theorem pointerInv_of_wf {c : Config} (h : c.wf = true) : pointerInv c.txdescPowerOn ∧ pointerInv c.rxdescPowerOn := by
  simp only [Config.wf, Bool.and_eq_true, decide_eq_true_eq] at h
  exact ⟨h.1.2, h.2⟩

/-- Settles O46: pointers that meet the constraint are stored as they are, and the MAC bytes are put together and taken
apart again. -/
theorem powerOnValues : Obligations.PowerOnValues := by
  intro c hwf
  obtain ⟨htx, hrx⟩ := pointerInv_of_wf hwf
  exact ⟨rfl, rfl, rfl, newPointer_of_pointerInv htx, newPointer_of_pointerInv hrx, macBytes_of_bytes c.macDefault,
    rfl, rfl, rfl⟩

/-! ## The values of status -/

/-- With the reserved bits clear, status is its two flags. -/
theorem eq_flags_of_statusInv {status : Word} (h : statusInv status) :
    status =
      (if status.getLsbD 3 then BitVec.twoPow 32 3 else 0) |||
        (if status.getLsbD 2 then BitVec.twoPow 32 2 else 0) := by
  calc status
    _ = (status &&& 0xfffffff3) ||| (status &&& (BitVec.twoPow 32 3 ||| BitVec.twoPow 32 2)) := by
      rw [← BitVec.and_or_distrib_left]
      exact BitVec.and_allOnes.symm
    _ = status &&& (BitVec.twoPow 32 3 ||| BitVec.twoPow 32 2) := by
      rw [show status &&& 0xfffffff3 = 0 from h]
      exact BitVec.zero_or
    _ = _ := by
      rw [BitVec.and_or_distrib_left, BitVec.and_twoPow, BitVec.and_twoPow]
      rfl

theorem statusInv_values {status : Word} (h : statusInv status) : status ∈ ([0x0, 0x4, 0x8, 0xc] : List Word) := by
  rw [eq_flags_of_statusInv h]
  cases status.getLsbD 3 <;> cases status.getLsbD 2 <;> decide

/-- Settles O50: a load answers the register, which holds one of the four values. -/
theorem statusReadsAsOneOfFour : Obligations.StatusReadsAsOneOfFour := fun s _ hinv =>
  ⟨s.status, statusInv_values hinv.2.1, rfl⟩

end Sys2Proof.Machine
end

section
/-! PROOFS. Descriptors in guest memory: word0 and word1 are big-endian (R47), and the write-backs of the two engines, as
numbers in memory (R137, R155). -/

namespace Sys2Proof.Machine

/-! ## Four bytes of memory as a number -/

theorem wordOfBytes_toNat (b0 b1 b2 b3 : Byte) :
    (wordOfBytes b0 b1 b2 b3).toNat = b0.toNat * 2 ^ 24 + b1.toNat * 2 ^ 16 + b2.toNat * 2 ^ 8 + b3.toNat := by
  obtain ⟨h0, h1, h2, h3⟩ := extract_wordOfBytes b0 b1 b2 b3
  have hw := (wordOfBytes b0 b1 b2 b3).isLt
  generalize wordOfBytes b0 b1 b2 b3 = w at *
  simp only [← BitVec.toNat_inj, BitVec.extractLsb'_toNat, Nat.shiftRight_eq_div_pow] at h0 h1 h2 h3
  omega

theorem descriptorAt_word0 (m : Memory) (p : Word) :
    (descriptorAt m p).word0 =
      wordOfBytes (m.readByte p.toNat) (m.readByte (p.toNat + 1)) (m.readByte (p.toNat + 2)) (m.readByte (p.toNat + 3)) :=
  rfl

theorem descriptorAt_word1 (m : Memory) (p : Word) :
    (descriptorAt m p).word1 =
      wordOfBytes (m.readByte (p.toNat + 4)) (m.readByte (p.toNat + 5)) (m.readByte (p.toNat + 6))
        (m.readByte (p.toNat + 7)) :=
  rfl

/-- Settles O41: the eight bytes fetched, four at a time. -/
theorem descriptorsAreBigEndian : Obligations.DescriptorsAreBigEndian := fun m p =>
  ⟨descriptorAt_word0 m p ▸ wordOfBytes_toNat .., descriptorAt_word1 m p ▸ wordOfBytes_toNat ..⟩

/-- Where the four bytes at a pointer are those of a word, the word is word0 there. -/
theorem descriptorAt_word0_of_bytes {m : Memory} {p w : Word}
    (h : ∀ k, k < 4 → m.readByte (p.toNat + k) = (be32bytes w).getD k 0) : (descriptorAt m p).word0 = w := by
  have h0 := h 0 (by decide)
  have h1 := h 1 (by decide)
  have h2 := h 2 (by decide)
  have h3 := h 3 (by decide)
  rw [Nat.add_zero] at h0
  rw [descriptorAt_word0, h0, h1, h2, h3]
  exact wordOfBytes_extract w

end Sys2Proof.Machine
end

section
/-! PROOFS. The transmit transaction (R131, R132, R136, R137): its early exit, its write-back and its frame. -/

namespace Sys2Proof.Machine

section TransmitMemory

variable {i : Instr} {s t : State}

@[simp] theorem txSendState_mem (s : State) (d : Descriptor) :
    (txSendState s d).mem = s.mem.writeRange s.txdesc.toNat (be32bytes 0) := by
  simp [txSendState, txComplete]

theorem exec_txSend_of_disabled (hd : admits s.cfg s.txdesc descSize = true)
    (hen : descEnable (descriptorAt s.mem s.txdesc).word0 = false) :
    exec .txSend s = .next (s.emit (.memRead s.txdesc descSize)) := by
  rw [exec_eq_next (dmaAdmitted_txSend_iff.2 ⟨hd, fun hon => absurd hon (ne_true_of_eq_false hen)⟩),
    nextState_txSend_of_disabled hen]

/-- The word0 of a completed transmit is written back at an admitted address. -/
theorem admits_txdesc_of_completesTransmit (hc : completesTransmit i s = true) (hadm : dmaAdmitted i s) :
    admits s.cfg s.txdesc 4 = true := by
  have hsend (u : State) (hen : descEnable (descriptorAt u.mem u.txdesc).word0 = true) (h : dmaAdmitted .txSend u) :
      admits u.cfg u.txdesc 4 = true := ((dmaAdmitted_txSend_iff.1 h).2 hen).2
  cases i with
  | txSend => exact hsend s hc hadm
  | storeCtrl size value =>
    obtain ⟨htx, hen⟩ := Bool.and_eq_true_iff.1 hc
    rw [dmaAdmitted, dmaAccesses_storeCtrl, htx] at hadm
    exact hsend s hen hadm
  | _ => cases hc

end TransmitMemory

/-- Settles O27: `TX.IDLE` is the read alone, and the transaction that a ctrl store runs on a disabled descriptor is too. -/
theorem transmitIdleOnlyReads : Obligations.TransmitIdleOnlyReads := by
  refine fun s => ⟨fun hd => ?_, fun hd => ?_, fun size value htx hen hd => ?_⟩
  · exact exec_eq_next (dmaAdmitted_txIdle_iff.2 hd)
  · exact exec_eq_dmaError (mt dmaAdmitted_txIdle_iff.1 (ne_true_of_eq_false hd))
  · rw [exec_storeCtrl_of_set size htx]
    exact exec_txSend_of_disabled (s := { s with ctrl := newCtrl value }) hd hen

/-- Settles O28: the transaction stops at a disabled descriptor, leaves `txSendState` of an enabled one, and is `DmaError`
where an access of either is not admitted. -/
theorem transmitTransaction : Obligations.TransmitTransaction := by
  intro s p d L
  refine ⟨fun hen hd => exec_txSend_of_disabled hd hen, fun hen hd hbuf hword0 => ?_, fun hbad =>
    exec_eq_dmaError fun hadm => ?_⟩
  · rw [exec_eq_next (dmaAdmitted_txSend_iff.2 ⟨hd, fun _ => ⟨hbuf, hword0⟩⟩), nextState_txSend_of_enabled hen,
      txSendState_eq]
    rfl
  · obtain ⟨hd, hrest⟩ := dmaAdmitted_txSend_iff.1 hadm
    rcases hbad with hd' | ⟨hen, hbuf' | hword0'⟩
    · exact absurd hd (ne_true_of_eq_false hd')
    · exact absurd (hrest hen).1 (ne_true_of_eq_false hbuf')
    · exact absurd (hrest hen).2 (ne_true_of_eq_false hword0')

/-- Settles O29: the one write of a completed transmit is that of word0, at the address txdesc had. -/
theorem transmitZeroesWord0Only : Obligations.TransmitZeroesWord0Only := by
  intro i s t hwf hc h
  have hfits := admits_fits (admits_txdesc_of_completesTransmit hc (exec_eq_next_iff.1 h).1)
  rw [exec_of_completesTransmit hc h, txSendState_mem]
  refine ⟨fun k hk => ?_, fun a ha => readByte_writeRange_other _ _ _ _ ha⟩
  rw [readByte_writeRange_inside _ hwf hfits hk]
  interval_cases k <;> rfl

/-- Settles O30: the frame sent is the range read at word1. -/
theorem sentFrameIsTheMemoryAtWord1 : Obligations.SentFrameIsTheMemoryAtWord1 := by
  intro i s t hc h
  rw [exec_of_completesTransmit hc h]
  refine ⟨_, sentOf_txSendState _ _, ?_, ?_, fun k hk => readRange_getD _ _ _ k (by simpa using hk)⟩
  · rw [readRange_length, txLength_eq_mod]
  · rw [readRange_length]
    exact Nat.le_of_lt_succ (txLength_lt_cap _)

end Sys2Proof.Machine
end

section
/-! PROOFS. The receive (R151, R153, R154, R155): its early exits, where the frame lands, and what the written-back word0 is
as a descriptor (R227, R236). -/

namespace Sys2Proof.Machine

/-- Settles O36: `RX.NOBUF` is the read and the return of 0, or with `RXEN` clear the return of 0 alone. -/
theorem receiveNoBufferOnlyReads : Obligations.ReceiveNoBufferOnlyReads := by
  refine fun frame s => ⟨fun hrx hd => ?_, fun hrx hd => ?_, fun hrx => ?_⟩
  · rw [exec_eq_next (dmaAdmitted_rxNoBuf_iff.2 fun _ => hd), nextState, effects_rxNoBuf,
      show rxEnabled s.ctrl = true from hrx]
    rfl
  · exact exec_eq_dmaError fun hadm => absurd (dmaAdmitted_rxNoBuf_iff.1 hadm hrx) (ne_true_of_eq_false hd)
  · rw [exec_eq_next (dmaAdmitted_rxNoBuf_iff.2 fun hon => absurd hon (ne_true_of_eq_false hrx)), nextState,
      effects_rxNoBuf, show rxEnabled s.ctrl = false from hrx]
    rfl

/-! ## The whole receive -/

/-- Settles O37: the receive returns at once with `RXEN` clear and after the read at a disabled descriptor, leaves
`rxDeliverState` of an enabled one, and is `DmaError` where an access of these is not admitted. -/
theorem receiveTransaction : Obligations.ReceiveTransaction := by
  intro frame s n p d w
  refine ⟨fun hrx => ?_, fun hrx hen hd => ?_, fun hrx hen hd hbuf hword0 => ?_, fun hrx hbad =>
    exec_eq_dmaError fun hadm => ?_⟩
  · rw [exec_eq_next (dmaAdmitted_rxDeliver_iff.2 fun hon => absurd hon (ne_true_of_eq_false hrx)),
      nextState_rxDeliver_of_off hrx]
    rfl
  · rw [exec_eq_next (dmaAdmitted_rxDeliver_iff.2 fun _ => ⟨hd, fun hon => absurd hon (ne_true_of_eq_false hen)⟩),
      nextState_rxDeliver_of_disabled hrx hen]
    simp only [State.emit, List.append_assoc]
    rfl
  · rw [exec_eq_next (dmaAdmitted_rxDeliver_iff.2 fun _ => ⟨hd, fun _ => ⟨hbuf, hword0⟩⟩),
      nextState_rxDeliver_of_enabled hrx hen, rxDeliverState_eq]
    rfl
  · obtain ⟨hd, hrest⟩ := dmaAdmitted_rxDeliver_iff.1 hadm hrx
    rcases hbad with hd' | ⟨hen, hbuf' | hword0'⟩
    · exact absurd hd (ne_true_of_eq_false hd')
    · exact absurd (hrest hen).1 (ne_true_of_eq_false hbuf')
    · exact absurd (hrest hen).2 (ne_true_of_eq_false hword0')

/-! ## Memory after a completed receive -/

/-- A completed receive stores the frame and then its length, each at admitted addresses. -/
theorem mem_of_completesReceive {frame : Frame} {s t : State} (hc : completesReceive (.rxDeliver frame) s = true)
    (h : exec (.rxDeliver frame) s = .next t) :
    admits s.cfg (descriptorAt s.mem s.rxdesc).word1 frame.length = true ∧ admits s.cfg s.rxdesc 4 = true ∧
      t.mem = (s.mem.writeRange (descriptorAt s.mem s.rxdesc).word1.toNat frame).writeRange s.rxdesc.toNat
        (be32bytes (rxLengthWord frame.length)) := by
  obtain ⟨hrx, hen⟩ := Bool.and_eq_true_iff.1 hc
  obtain ⟨hadm, rfl⟩ := exec_eq_next_iff.1 h
  obtain ⟨hbuf, hword0⟩ := (dmaAdmitted_rxDeliver_iff.1 hadm hrx).2 hen
  refine ⟨hbuf, hword0, ?_⟩
  rw [nextState_rxDeliver_of_enabled hrx hen, rxDeliverState_eq]
  rfl

/-- Settles O38: the length is stored last, so its four bytes are the length's; the frame's bytes outside them stay. -/
theorem deliveredFrameLandsAtWord1 : Obligations.DeliveredFrameLandsAtWord1 := by
  intro frame s t hwf hc h
  obtain ⟨hbuf, hword0, hmem⟩ := mem_of_completesReceive hc h
  have hwf' := wf_writeRange frame hwf (admits_fits hbuf)
  rw [hmem]
  refine ⟨fun k => readByte_writeRange_inside (be32bytes (rxLengthWord frame.length)) hwf' (admits_fits hword0),
    fun k hk hout => ?_, fun a hout hout' => ?_⟩
  · rw [readByte_writeRange_other _ _ _ _ hout]
    exact readByte_writeRange_inside frame hwf (admits_fits hbuf) hk
  · rw [readByte_writeRange_other _ _ _ _ hout]
    exact readByte_writeRange_other _ _ _ _ hout'

/-! ## The written-back length as a descriptor -/

/-- `EN` and `WR` of a length, as numbers: bit 11 and bit 12 (R79). -/
theorem getLsbD_rxLengthWord {n k : Nat} (hk : k < 32) : (BitVec.ofNat 32 n).getLsbD k = decide (n / 2 ^ k % 2 = 1) := by
  rw [BitVec.getLsbD_ofNat, Nat.testBit_eq_decide_div_mod_eq, decide_eq_true hk, Bool.true_and]

/-- Settles O39: word0 is the length, whose bits 11 and 12 are `EN` and `WR`. -/
theorem writeBackReadAsADescriptor : Obligations.WriteBackReadAsADescriptor := by
  intro frame s t hwf hc h
  have hword0 := descriptorAt_word0_of_bytes (deliveredFrameLandsAtWord1 frame s t hwf hc h).1
  rw [hword0, getLsbD_rxLengthWord (by decide), getLsbD_rxLengthWord (by decide)]
  simp only [decide_eq_true_eq, decide_eq_false_iff_not]
  refine ⟨trivial, fun hlen => ⟨by omega, by omega, ?_⟩, fun hlo hhi => ⟨by omega, by omega⟩, fun hlo hhi => by omega⟩
  have hmod := txLength_eq_mod (BitVec.ofNat 32 frame.length)
  rw [BitVec.toNat_ofNat] at hmod
  exact hmod.trans (by omega)

/-- Settles O40: a bounded frame is shorter than 2048 bytes, so the length written back has `EN` 0. -/
theorem boundedPortHandsTheSlotBack : Obligations.BoundedPortHandsTheSlotBack := by
  intro frame s t hwf hbound hallowed hc h frame' u hmem hrxdesc hrx
  have hlen : frame.length < 2048 := Nat.lt_of_le_of_lt (of_decide_eq_true hallowed) hbound
  have hen := ((writeBackReadAsADescriptor frame s t hwf hc h).2.1 hlen).1
  rw [← hmem, ← hrxdesc] at hen
  rw [decodeRecord_receiveRecord, receiveOperation_noBuf hrx hen]

end Sys2Proof.Machine
end

section
/-! PROOFS. The guest-memory accessor (R46, D2, log 8): which ranges it admits, and that every predicate is some platform's.
-/

namespace Sys2Proof.Machine

section Admits

variable {c : Config} {addr : Word} {n : Nat}

@[simp] theorem admits_zero (c : Config) (addr : Word) : admits c addr 0 = true := admits_iff.2 (.inl rfl)

theorem rangesMeet_eq_false_iff {a n b m : Nat} :
    rangesMeet a n b m = false ↔ ∀ x, a ≤ x → x < a + n → ¬ (b ≤ x ∧ x < b + m) := by
  rw [← Bool.not_eq_true, rangesMeet_iff]
  simp only [not_exists, not_and]

theorem platformAdmits_iff :
    platformAdmits c addr n = true ↔
      (addr, n) ∉ c.turnedAway ∧ ∀ h ∈ c.holes, rangesMeet addr.toNat n h.1 h.2 = false := by
  simp [platformAdmits]

theorem length_ne_zero_of_mem {a : Nat} (hlo : addr.toNat ≤ a) (hhi : a < addr.toNat + n) : n ≠ 0 := by
  omega

theorem admits_eq_false_iff (hn : n ≠ 0) :
    admits c addr n = false ↔ guestSpace < addr.toNat + n ∨
      rangesMeet addr.toNat n c.regBase.toNat c.regWindowSize = true ∨ platformAdmits c addr n = false := by
  rw [← Bool.not_eq_true, admits_iff]
  simp only [hn, false_or, not_and_or, Nat.not_le, Bool.not_eq_false, Bool.not_eq_true]

end Admits

/-- Settles O15: a range of at least one byte is turned away by its end, the register window, a hole or the list, and by
nothing else. -/
theorem admitsExclusions : Obligations.AdmitsExclusions := by
  intro c addr n
  refine ⟨admits_zero c addr, fun hpast => ?_, fun a hlo hhi hlo' hhi' => ?_, fun a hlo hhi => ?_, fun hpos hturned => ?_,
    fun hfits hout hturned => ?_⟩
  · have hn : n ≠ 0 := by
      have := addr.isLt
      omega
    exact (admits_eq_false_iff hn).2 (.inl hpast)
  · exact (admits_eq_false_iff (length_ne_zero_of_mem hlo hhi)).2
      (.inr (.inl (rangesMeet_iff.2 ⟨a, hlo, hhi, hlo', hhi'⟩)))
  · rintro ⟨h, hmem, hin⟩
    refine (admits_eq_false_iff (length_ne_zero_of_mem hlo hhi)).2 (.inr (.inr ?_))
    rw [← Bool.not_eq_true, platformAdmits_iff]
    exact fun hp => rangesMeet_eq_false_iff.1 (hp.2 h hmem) a hlo hhi hin
  · refine (admits_eq_false_iff (Nat.pos_iff_ne_zero.1 hpos)).2 (.inr (.inr ?_))
    rw [← Bool.not_eq_true, platformAdmits_iff]
    exact fun hp => hp.1 hturned
  · refine admits_iff.2 (.inr ⟨hfits, ?_, platformAdmits_iff.2 ⟨hturned, fun h hmem => ?_⟩⟩)
    · exact rangesMeet_eq_false_iff.2 fun a hlo hhi => (hout a hlo hhi).1
    · exact rangesMeet_eq_false_iff.2 fun a hlo hhi => (hout a hlo hhi).2 h hmem

/-! ## Every predicate is some platform's -/

/-- The accesses of fewer than `bound` bytes that a predicate turns away. -/
def turnedAwayBelow (bound : Nat) (p : Word → Nat → Bool) : List (Word × Nat) :=
  (List.range bound).flatMap fun n =>
    ((List.range guestSpace).map fun a => (BitVec.ofNat 32 a, n)).filter fun access => !p access.1 access.2

theorem mem_turnedAwayBelow {bound n : Nat} {p : Word → Nat → Bool} {addr : Word} :
    (addr, n) ∈ turnedAwayBelow bound p ↔ n < bound ∧ p addr n = false := by
  simp only [turnedAwayBelow, List.mem_flatMap, List.mem_filter, List.mem_map, List.mem_range, Prod.mk.injEq,
    Bool.not_eq_true']
  constructor
  · rintro ⟨_, hn, ⟨_, _, rfl, rfl⟩, hp⟩
    exact ⟨hn, hp⟩
  · rintro ⟨hn, hp⟩
    exact ⟨n, hn, ⟨addr.toNat, addr.isLt, BitVec.ofNat_toNat .., rfl⟩, hp⟩

/-- Settles O58: the list of what the predicate turns away among the ranges that can end within 2^32. -/
theorem everyAccessorIsSomePlatform : Obligations.EveryAccessorIsSomePlatform := by
  refine fun c p => ⟨turnedAwayBelow (guestSpace + 1) p, fun addr n => ?_⟩
  rw [admits_iff]
  refine or_congr_right (and_congr_right fun hfits => and_congr rangesMeet_eq_false_iff ?_)
  rw [platformAdmits_iff, mem_turnedAwayBelow]
  have hn : n < guestSpace + 1 := by omega
  simp [hn]

end Sys2Proof.Machine
end

section
/-! PROOFS. The accesses of the register window that run no engine: the loads (R100 to R107), the unmapped store (R115) and
the MAC stores (R110, R111). -/

namespace Sys2Proof.Machine

/-- Settles O17: `nextState` of a load. -/
theorem loadsReturnTheirRegister : Obligations.LoadsReturnTheirRegister := fun _ _ =>
  ⟨rfl, rfl, rfl, rfl, rfl, rfl, rfl⟩

/-- Settles O18: the log of the access, and for a load the value 0. -/
theorem unmappedAccessesNeverFail : Obligations.UnmappedAccessesNeverFail := fun offset size _ s =>
  ⟨exec_loadUnmapped offset size s, rfl⟩

/-- Settles O20: the half held is the low half of the value. -/
theorem macStoresReplaceTheirHalf : Obligations.MacStoresReplaceTheirHalf := by
  refine fun size value s => ⟨⟨{ s with macHi := macHiOfValue value }, rfl, rfl, ?_⟩, rfl⟩
  exact BitVec.extractLsb'_toNat ..

end Sys2Proof.Machine
end
